-- ==== Sys2Proof/Word.lean ====
section
/-! DEFINITION. The two widths of the machine's values (00_scope.md R5, R6). -/

namespace Sys2Proof

/-- An 8-bit value: a memory cell, A, CCR, an opcode or operand byte (00_scope.md R6; DATA_WIDTH = 8). -/
abbrev Byte := BitVec 8

/-- A 16-bit value: an address, PC, X (00_scope.md R6; ADDR_WIDTH = 16). -/
abbrev Word := BitVec 16

end Sys2Proof
end

