-- ==== Sys2Proof/Syntax.lean ====
section
/-! DEFINITION. Instructions as data: one constructor of `Instr` per row of the opcode table, and the
table's own vocabulary (mode tags, operations, rows). -/

namespace Sys2Proof

/-- The addressing-mode tags of the resolver (40_addressing_resolver.md R56). `none` is the tag None
that must never be resolved (R61); HALT has no mode at all, which is not this tag. -/
inductive Mode where
  | immediate
  | direct
  | relative
  | indexedX
  | none
deriving DecidableEq, Repr

/-- How many operand bytes the formats IMM8, DIR8, REL8 and IDX16 hold (30_encoding.md R44 to R47). -/
def Mode.operandBytes : Mode → Nat
  | .immediate => 1
  | .direct => 1
  | .relative => 1
  | .indexedX => 2
  | .none => 0

/-- What decode maps an opcode byte to: the instruction and its addressing mode (43_loop_halt.md R85). -/
inductive Operation where
  | lda (mode : Mode)
  | add (mode : Mode)
  | halt
deriving DecidableEq, Repr

/-- One row of the decode table: byte, instruction with mode, operand-byte count (30_encoding.md R49). -/
structure OpcodeRow where
  opcode : Byte
  operation : Operation
  operandBytes : Nat
deriving DecidableEq, Repr

/-- The instructions: one constructor for each row of spec/opcode_table.json (30_encoding.md R49). -/
inductive Instr where
  /-- HALT, opcode 0x00 (43_loop_halt.md R88). -/
  | halt
  /-- HALT, opcode 0x3E, spelled HALT.3E (43_loop_halt.md R89). -/
  | halt3E
  /-- LDA immediate, opcode 0x86 (42_lda_add.md R76). -/
  | ldaImm (ii : Byte)
  /-- LDA direct, opcode 0x96 (42_lda_add.md R77). -/
  | ldaDir (dd : Byte)
  /-- ADD immediate, opcode 0x8B (42_lda_add.md R78). -/
  | addImm (ii : Byte)
  /-- ADD direct, opcode 0x9B (42_lda_add.md R79). -/
  | addDir (dd : Byte)
deriving DecidableEq, Repr

end Sys2Proof
end

