-- ==== Sys2Proof/Decode.lean ====
section
/-! DEFINITION. Decoding, total on any bytes and rejecting by name; the encoder; the assembler spelling.
(30_encoding.md R42 to R54, 43_loop_halt.md R85.) -/

namespace Sys2Proof

/-- The decode table, in the order of 30_encoding.md R49. -/
def opcodeTable : List OpcodeRow :=
  [ ⟨0x00#8, .halt, 0⟩,
    ⟨0x3E#8, .halt, 0⟩,
    ⟨0x86#8, .lda .immediate, 1⟩,
    ⟨0x8B#8, .add .immediate, 1⟩,
    ⟨0x96#8, .lda .direct, 1⟩,
    ⟨0x9B#8, .add .direct, 1⟩ ]

/-- Decoding is a lookup of the whole opcode byte and nothing else (R50, R85). -/
def lookupOpcode (opcode : Byte) : Option OpcodeRow :=
  opcodeTable.find? (fun row => row.opcode == opcode)

/-- The four opcodes that take one operand byte. -/
inductive OperandOpcode where
  | ldaImm
  | ldaDir
  | addImm
  | addDir
deriving DecidableEq, Repr

/-- The instruction an opcode with one operand byte makes with that byte (R44, R45). -/
def OperandOpcode.withOperand : OperandOpcode → Byte → Instr
  | .ldaImm, ii => .ldaImm ii
  | .ldaDir, dd => .ldaDir dd
  | .addImm, ii => .addImm ii
  | .addDir, dd => .addDir dd

/-- What byte 0 says by itself (R53): a whole instruction, an instruction with one operand byte to come,
or an illegal byte. -/
inductive OpcodeClass where
  | inherent (i : Instr)
  | oneOperand (o : OperandOpcode)
  | illegal
deriving DecidableEq, Repr

/-- Byte 0, matched on all eight bits (R49, R50); every other byte is illegal (R51). -/
def classifyOpcode (opcode : Byte) : OpcodeClass :=
  if opcode = 0x00#8 then .inherent .halt
  else if opcode = 0x3E#8 then .inherent .halt3E
  else if opcode = 0x86#8 then .oneOperand .ldaImm
  else if opcode = 0x8B#8 then .oneOperand .addImm
  else if opcode = 0x96#8 then .oneOperand .ldaDir
  else if opcode = 0x9B#8 then .oneOperand .addDir
  else .illegal

/-- The length of the instruction that byte 0 begins; an illegal byte has none (R53). -/
def instrLength (opcode : Byte) : Option Nat :=
  match classifyOpcode opcode with
  | .inherent _ => some 1
  | .oneOperand _ => some 2
  | .illegal => none

/-- Why bytes are no instruction. The last two are the model's own (a byte list that ends too soon, log 15). -/
inductive DecodeError where
  /-- Byte 0 is none of the six (R51). -/
  | unknownOpcode (opcode : Byte)
  /-- The operand byte is missing from the list. -/
  | truncated (opcode : Byte)
  /-- There is no byte at all. -/
  | noBytes
deriving DecidableEq, Repr

/-- The instruction at the head of a byte list, and the bytes after it (R42 to R45, R49). -/
def decode : List Byte → Except DecodeError (Instr × List Byte)
  | [] => .error .noBytes
  | opcode :: rest =>
    match classifyOpcode opcode with
    | .inherent i => .ok (i, rest)
    | .oneOperand o =>
      match rest with
      | [] => .error (.truncated opcode)
      | operand :: rest' => .ok (o.withOperand operand, rest')
    | .illegal => .error (.unknownOpcode opcode)

/-- The bytes of an instruction, opcode first (formats INH, IMM8, DIR8: R43 to R45, R49). -/
def encode : Instr → List Byte
  | .halt => [0x00#8]
  | .halt3E => [0x3E#8]
  | .ldaImm ii => [0x86#8, ii]
  | .ldaDir dd => [0x96#8, dd]
  | .addImm ii => [0x8B#8, ii]
  | .addDir dd => [0x9B#8, dd]

/-- The two lowest bytes of a table word, lowest address first; bits from `nbits` up are 0. Two bytes are
the longest instruction (R42). -/
def tableBytes (nbits w : Nat) : List Byte :=
  [BitVec.ofNat 8 (w % 2 ^ nbits), BitVec.ofNat 8 (w % 2 ^ nbits / 256)]

/-- The instruction the decoder reads from a word numbered as spec/opcode_table.json numbers it. -/
def decodeTableWord (nbits w : Nat) : Option Instr :=
  match decode (tableBytes nbits w) with
  | .ok (i, _) => some i
  | .error _ => none

/-- One hexadecimal digit, upper case. -/
def hexDigit (n : Nat) : Char :=
  if n < 10 then Char.ofNat (48 + n) else Char.ofNat (55 + n)

/-- A byte as two hexadecimal digits. -/
def hexByte (b : Byte) : List Char :=
  [hexDigit (b.toNat / 16), hexDigit (b.toNat % 16)]

/-- The assembler spelling of an instruction, as characters (R54; decision D11). -/
def assembly : Instr → List Char
  | .halt => ['H', 'A', 'L', 'T']
  | .halt3E => ['H', 'A', 'L', 'T', '.', '3', 'E']
  | .ldaImm ii => ['L', 'D', 'A', ' ', '#', '$'] ++ hexByte ii
  | .ldaDir dd => ['L', 'D', 'A', ' ', '$'] ++ hexByte dd
  | .addImm ii => ['A', 'D', 'D', ' ', '#', '$'] ++ hexByte ii
  | .addDir dd => ['A', 'D', 'D', ' ', '$'] ++ hexByte dd

end Sys2Proof
end

