-- ==== Sys2Proof/Config.lean ====
section
/-! DEFINITION. The implementation parameters of 00_scope.md R5, each at the value the spec gives it.
The alternatives that R5 and 92_eei_decisions.md name are constructors, so that every place where a
parameter matters shows it. -/

namespace Sys2Proof.Config

/-- MEM_EXTENT: the number of byte cells, at addresses 0 to 0xFFFF (R5, R26; decision D1, log 6). -/
def memExtent : Nat := 65536

/-- ORIGIN: where a program is loaded, and PC after load and after `reset()` (R5, R23, R24). -/
def origin : Word := 0xE000#16

/-- MAX_LOAD_LEN = MEM_EXTENT - ORIGIN (R5; decision D12, log 12). -/
def maxLoadLen : Nat := memExtent - origin.toNat

/-- HALT_OPCODES: the opcodes that end a run (R5). -/
def haltOpcodes : List Byte := [0x00#8, 0x3E#8]

/-- What a 16-bit step past 0xFFFF does: the values of PC_OVERFLOW and READ16_WRAP (R5). -/
inductive OnWrap where
  | fault
  | wrap
deriving DecidableEq, Repr

/-- PC_OVERFLOW = fault (R5, R84; decision D3, log 7). -/
def pcOverflow : OnWrap := .fault

/-- READ16_WRAP = fault (R5, R29; decision D2, log 8). -/
def read16Wrap : OnWrap := .fault

/-- How Relative mode widens its offset byte: the values of REL_OFFSET_EXT (R5). -/
inductive OffsetExt where
  | zero
  | sign
deriving DecidableEq, Repr

/-- REL_OFFSET_EXT = zero (R5, R59; decision D5, log 9). -/
def relOffsetExt : OffsetExt := .zero

/-- What `reset()` does to X: the values of X_ON_RESET (R5). -/
inductive XOnReset where
  | unchanged
  | zero
deriving DecidableEq, Repr

/-- X_ON_RESET = unchanged (R5, R23; decision D9, log 10). -/
def xOnReset : XOnReset := .unchanged

end Sys2Proof.Config
end

