-- ==== Sys2Proof/Machine/State.lean ====
section
/-! DEFINITION. The state of the machine as plain data (10_state.md R10), the fault kinds, the refusals,
and the state after construction and after reset. -/

namespace Sys2Proof.Machine

/-- The complete list of fault kinds, each with its recorded value (60_exceptions.md R98; names D17).
A Step that raises one goes to a NEXT state whose RUN is `faulted kind` (R107, log 2); `Outcome.fault kind`
is the answer of every Step tried after that. -/
inductive Fault where
  /-- Raised by decode, for a byte outside the table (R99). Safe: the run ends, as the spec says. -/
  | unknownOpcode (opcode : Byte)
  /-- Raised by the resolver for the mode tag None (R100); no opcode selects it. Safe. -/
  | invalidAddressingMode
  /-- Raised by the increment of PC at 0xFFFF (R101; decision D3, log 7). Safe: hardware that wraps goes on. -/
  | pcOverflow (pc : Word)
  /-- Raised by a word read at 0xFFFF (R102; decision D2, log 8); no opcode reads a word. Safe. -/
  | addressWrap (addr : Word)
  /-- Raised by an access at or above MEM_EXTENT (R103); with MEM_EXTENT = 65536 it never is (log 6). Safe. -/
  | extentViolation (addr : Word)
deriving DecidableEq, Repr

/-- Why the model gives no next state although nothing faulted. -/
inductive Refusal where
  /-- Raised by an arm of `exec` whose instruction has no meaning yet; no arm does. Safe. -/
  | notModelled (mnemonic : String)
  /-- Raised by `step` when RUN is Idle: a Step may be taken only when RUN = Running (R83, log 1). Safe. -/
  | notRunning
  /-- Raised by a host operation that needs RUN = Idle when RUN is not (70_reset_and_hazards.md R114;
  decision D13, log 11). UNSAFE only for a host that acts during a run: the model has no such move. -/
  | hostNotIdle
  /-- Raised by Load for more than MAX_LOAD_LEN bytes (R117; decision D12, log 12). Safe. -/
  | loadTooLong
deriving DecidableEq, Repr

/-- The run-state latch RUN (10_state.md R20; decision D6). -/
inductive RunState where
  | idle
  | running
  | faulted (kind : Fault)
deriving DecidableEq, Repr

/-- Memory: the cells that are not 0x00, by strictly rising address (`Memory.wf`); every unlisted address
reads `Memory.unlisted`. -/
abbrev Memory := List Host.Cell

/-- What an unlisted address reads as: every cell is 0x00 after construction (R22, R27). -/
def Memory.unlisted : Byte := 0x00#8

/-- The whole state of the machine (10_state.md R10). -/
structure State where
  /-- A, the accumulator (R11). -/
  a : Byte
  /-- X, the index register (R12). -/
  x : Word
  /-- CCR, the condition-code register (R13 to R16). -/
  ccr : Byte
  /-- PC, the program counter (R17 to R19). -/
  pc : Word
  /-- Mem (R21). -/
  mem : Memory
  /-- RUN, the run-state latch (R20). -/
  run : RunState
deriving DecidableEq, Repr

/-- The state after construction (power-on): every field zero, RUN Idle (R22, R115). -/
def State.construct : State :=
  { a := 0x00#8, x := 0x0000#16, ccr := 0x00#8, pc := 0x0000#16, mem := [], run := .idle }

/-- The machine right after reset: the constructed machine after `reset()` (R22, R23, R116; log 3). -/
def State.reset : State :=
  { a := 0x00#8, x := 0x0000#16, ccr := 0x00#8, pc := Config.origin, mem := [], run := .idle }

end Sys2Proof.Machine
end

