-- ==== Sys2Proof/Machine/Ops.lean ====
section
/-! DEFINITION. The named operations over registers and memory, and raising a fault: the machine's one
form of exception (60_exceptions.md R107). There is no return from one (R109). -/

namespace Sys2Proof.Machine

/-! ## Registers: one named update for each field of State -/

def State.setA (s : State) (v : Byte) : State := { s with a := v }
def State.setX (s : State) (v : Word) : State := { s with x := v }
def State.setCcr (s : State) (v : Byte) : State := { s with ccr := v }
def State.setPc (s : State) (v : Word) : State := { s with pc := v }
def State.setMem (s : State) (m : Memory) : State := { s with mem := m }
def State.setRun (s : State) (r : RunState) : State := { s with run := r }

/-! ## Bits and bytes (00_scope.md R6, R7) -/

/-- `zext_16(b)`: low byte b, high byte 0. -/
def zext16 (b : Byte) : Word := b.setWidth 16

/-- `sext_16(b)`: named only for the alternative of decision D5. -/
def sext16 (b : Byte) : Word := b.signExtend 16

/-- `{hi, lo}`: the byte at the lower address is the high one (20_memory.md R34). -/
def hiLo (hi lo : Byte) : Word := hi ++ lo

/-- `Inc16(w)`: every increment of PC in the machine (43_loop_halt.md R84). -/
def inc16 (w : Word) : Except Fault Word :=
  if w = 0xFFFF#16 then
    match Config.pcOverflow with
    | .fault => .error (.pcOverflow w)
    | .wrap => .ok 0x0000#16
  else .ok (w + 1#16)

/-! ## Memory (20_memory.md) -/

/-- The byte held at an address, by the canonical list. -/
def Memory.read : Memory → Nat → Byte
  | [], _ => Memory.unlisted
  | (k, v) :: rest, addr => if k = addr then v else Memory.read rest addr

/-- A cell put in front of a list of later cells, left out if it holds what an unlisted address reads. -/
def Memory.cons (addr : Nat) (v : Byte) (rest : Memory) : Memory :=
  if v = Memory.unlisted then rest else (addr, v) :: rest

/-- The list with the byte at an address replaced; it keeps the canonical form. -/
def Memory.write : Memory → Nat → Byte → Memory
  | [], addr, v => Memory.cons addr v []
  | (k, w) :: rest, addr, v =>
    if addr < k then Memory.cons addr v ((k, w) :: rest)
    else if addr = k then Memory.cons addr v rest
    else (k, w) :: Memory.write rest addr v

/-- Addresses strictly rise from `low` on, lie below MEM_EXTENT, and no cell holds the unlisted value. -/
def Memory.wfFrom : Nat → Memory → Bool
  | _, [] => true
  | low, (k, v) :: rest =>
    decide (low ≤ k) && decide (k < Config.memExtent) && decide (v ≠ Memory.unlisted) &&
      Memory.wfFrom (k + 1) rest

/-- The canonical form: equal memories are equal lists. -/
def Memory.wf (m : Memory) : Bool := Memory.wfFrom 0 m

/-- `MemRead(addr, 1)` (R27); ExtentViolation is vacuous at MEM_EXTENT = 65536 (R26). -/
def memRead (m : Memory) (addr : Word) : Except Fault Byte :=
  if Config.memExtent ≤ addr.toNat then .error (.extentViolation addr)
  else .ok (m.read addr.toNat)

/-- `MemRead(addr, 2)`: two byte reads, the lower address first, big-endian (R28, R29, R34). -/
def memReadWord (m : Memory) (addr : Word) : Except Fault Word :=
  let lowByteAt (lowAddr : Word) : Except Fault Word :=
    match memRead m addr with
    | .error kind => .error kind
    | .ok hi =>
      match memRead m lowAddr with
      | .error kind => .error kind
      | .ok lo => .ok (hiLo hi lo)
  if addr = 0xFFFF#16 then
    match Config.read16Wrap with
    | .fault => .error (.addressWrap addr)
    | .wrap => lowByteAt 0x0000#16
  else lowByteAt (addr + 1#16)

/-- `MemWrite(addr, 1, v)`: the single write entry point, used only by the host (R30, R31). -/
def memWrite (m : Memory) (addr : Word) (v : Byte) : Except Fault Memory :=
  if Config.memExtent ≤ addr.toNat then .error (.extentViolation addr)
  else .ok (m.write addr.toNat v)

/-! ## Raising a fault, and the sequencer's operand advance -/

/-- `raise kind`: RUN <- Faulted(kind); nothing is saved, nothing is vectored, and what the Step has
written so far stands (R107, R108; decision D7, log 2). -/
def raise (kind : Fault) (s : State) : Host.Outcome State Fault Refusal :=
  .next (s.setRun (.faulted kind))

/-- The sequencer's advance of PC over the operand byte, after the executor (43_loop_halt.md R86). -/
def operandAdvance (s : State) : Host.Outcome State Fault Refusal :=
  match inc16 s.pc with
  | .error kind => raise kind s
  | .ok pc => .next (s.setPc pc)

end Sys2Proof.Machine
end

