-- ==== Sys2Proof/Machine/Flags.lean ====
section
/-! DEFINITION. The condition-code register's flags and the flag generator (10_state.md R13;
41_flag_unit.md). -/

namespace Sys2Proof.Machine

/-- The eight flags of CCR, bit 0 upward (10_state.md R13). -/
inductive Flag where
  | c
  | v
  | z
  | n
  | i
  | h
  | x
  | s
deriving DecidableEq, Repr

/-- The named mask of a flag (R13). -/
def Flag.mask : Flag → Byte
  | .c => 0x01#8
  | .v => 0x02#8
  | .z => 0x04#8
  | .n => 0x08#8
  | .i => 0x10#8
  | .h => 0x20#8
  | .x => 0x40#8
  | .s => 0x80#8

/-- An observer tests flag F as `CCR & mask(F) != 0` (R13, R120). -/
def flagSet (f : Flag) (ccr : Byte) : Bool := ccr &&& f.mask != 0x00#8

/-- `CCR.F <- b`: one bit is assigned, the other seven keep their values (00_scope.md R7; R69). -/
def writeFlag (f : Flag) (b : Bool) (ccr : Byte) : Byte :=
  if b then ccr ||| f.mask else ccr &&& ~~~f.mask

/-- `UpdateZN(v)` (41_flag_unit.md R64). -/
def updateZN (v : Byte) (ccr : Byte) : Byte :=
  writeFlag .n (v.getLsbD 7) (writeFlag .z (v == 0x00#8) ccr)

/-- `CarryOf(a, m, r)` (R65). -/
def carryOf (a m r : Byte) : Bool :=
  ((a &&& m) ||| (m &&& ~~~r) ||| (~~~r &&& a)) &&& 0x80#8 != 0x00#8

/-- `OverflowOf(a, m, r)` (R66). -/
def overflowOf (a m r : Byte) : Bool :=
  ((m &&& a &&& ~~~r) ||| (~~~m &&& ~~~a &&& r)) &&& 0x80#8 != 0x00#8

/-- CCR after a load of `v`: Z and N from it, V = 0, C kept (R68, R73). -/
def loadFlags (v : Byte) (ccr : Byte) : Byte :=
  writeFlag .v false (updateZN v ccr)

/-- CCR after an addition of `m` to `a`: C, V, Z, N all assigned, from `a` before the add (R67, R73). -/
def addFlags (a m : Byte) (ccr : Byte) : Byte :=
  let r := a + m
  updateZN r (writeFlag .v (overflowOf a m r) (writeFlag .c (carryOf a m r) ccr))

end Sys2Proof.Machine
end

