-- ==== Sys2Proof/Machine/Operands.lean ====
section
/-! DEFINITION. Operand forms and the addressing-mode resolver, total over its five mode tags
(30_encoding.md R48; 40_addressing_resolver.md R56 to R61). -/

namespace Sys2Proof.Machine

/-- DIR8: the zero-extended operand byte, in the direct page (R48(b), R58). -/
def directAddress (dd : Byte) : Word := zext16 dd

/-- REL8: PC, the address of the offset byte itself, plus the widened offset, wrapping (R48(d), R59;
decision D5, log 9). -/
def relativeAddress (pc : Word) (rr : Byte) : Word :=
  match Config.relOffsetExt with
  | .zero => pc + zext16 rr
  | .sign => pc + sext16 rr

/-- IDX16: X plus the 16-bit offset, wrapping (R48(c), R60). -/
def indexedAddress (x off : Word) : Word := x + off

/-- The resolver: the effective address, and the state after its one side effect, the extra advance of PC
in IndexedX mode (R56). It raises before it has written anything. -/
def resolve (mode : Mode) (s : State) : Except Fault (Word × State) :=
  match mode with
  | .immediate => .ok (s.pc, s)
  | .direct =>
    match memRead s.mem s.pc with
    | .error kind => .error kind
    | .ok dd => .ok (directAddress dd, s)
  | .relative =>
    match memRead s.mem s.pc with
    | .error kind => .error kind
    | .ok rr => .ok (relativeAddress s.pc rr, s)
  | .indexedX =>
    match memReadWord s.mem s.pc with
    | .error kind => .error kind
    | .ok off =>
      match inc16 s.pc with
      | .error kind => .error kind
      | .ok pc => .ok (indexedAddress s.x off, s.setPc pc)
  | .none => .error .invalidAddressingMode

end Sys2Proof.Machine
end

