-- ==== Sys2Proof/Machine/Add.lean ====
section
/-! DEFINITION. ADD (42_lda_add.md R75, R78, R79). A meaning runs on the state after Fetch, where PC is the
address of the operand byte (R17), and includes the sequencer's operand advance (log 5). -/

namespace Sys2Proof.Machine

/-- The add executor's commit: the flags from A before the add, then A <- A + operand modulo 256 (R75, R67). -/
def addA (operand : Byte) (s : State) : State :=
  (s.setCcr (addFlags s.a operand s.ccr)).setA (s.a + operand)

/-- ADD #$ii, opcode 0x8B (R78). -/
def execAddImm (ii : Byte) (s : State) : Host.Outcome State Fault Refusal :=
  operandAdvance (addA ii s)

/-- ADD $dd, opcode 0x9B (R79): the operand is the byte at 0x00dd. -/
def execAddDir (dd : Byte) (s : State) : Host.Outcome State Fault Refusal :=
  match memRead s.mem (directAddress dd) with
  | .error kind => raise kind s
  | .ok operand => operandAdvance (addA operand s)

end Sys2Proof.Machine
end

