-- ==== Sys2Proof/Machine/Halt.lean ====
section
/-! DEFINITION. The two HALT instructions (43_loop_halt.md R87 to R89). -/

namespace Sys2Proof.Machine

/-- The halt check: RUN goes to Idle and nothing else changes; PC is already past the opcode (R87). -/
def endRun (s : State) : Host.Outcome State Fault Refusal :=
  .next (s.setRun .idle)

/-- HALT, opcode 0x00 (R88). -/
def execHalt (s : State) : Host.Outcome State Fault Refusal := endRun s

/-- HALT.3E, opcode 0x3E (R89): identical in every effect. -/
def execHalt3E (s : State) : Host.Outcome State Fault Refusal := endRun s

end Sys2Proof.Machine
end

