-- ==== Sys2Proof/Machine/Load.lean ====
section
/-! DEFINITION. LDA (42_lda_add.md R74, R76, R77). A meaning runs on the state after Fetch, where PC is the
address of the operand byte (R17), and includes the sequencer's operand advance (log 5). -/

namespace Sys2Proof.Machine

/-- The load executor's commit: A <- value, Z and N from it, V <- 0 (R74). -/
def loadA (value : Byte) (s : State) : State :=
  (s.setA value).setCcr (loadFlags value s.ccr)

/-- LDA #$ii, opcode 0x86 (R76): the operand byte is the value (R48(a)). -/
def execLdaImm (ii : Byte) (s : State) : Host.Outcome State Fault Refusal :=
  operandAdvance (loadA ii s)

/-- LDA $dd, opcode 0x96 (R77): the value is the byte at 0x00dd (R48(b)). -/
def execLdaDir (dd : Byte) (s : State) : Host.Outcome State Fault Refusal :=
  match memRead s.mem (directAddress dd) with
  | .error kind => raise kind s
  | .ok value => operandAdvance (loadA value s)

end Sys2Proof.Machine
end

