-- ==== Sys2Proof/Machine/Dispatch.lean ====
section
/-! DEFINITION. The dispatch: one arm per instruction, each one call of its meaning. -/

namespace Sys2Proof.Machine

/-- What an instruction does to the state after Fetch (43_loop_halt.md R83, phases Execute and Halt check). -/
def exec (i : Instr) (s : State) : Host.Outcome State Fault Refusal :=
  match i with
  | .halt => Sys2Proof.Machine.execHalt s
  | .halt3E => Sys2Proof.Machine.execHalt3E s
  | .ldaImm ii => Sys2Proof.Machine.execLdaImm ii s
  | .ldaDir dd => Sys2Proof.Machine.execLdaDir dd s
  | .addImm ii => Sys2Proof.Machine.execAddImm ii s
  | .addDir dd => Sys2Proof.Machine.execAddDir dd s

end Sys2Proof.Machine
end

