-- ==== Sys2Proof/Machine/Fetch.lean ====
section
/-! DEFINITION. Fetching and decoding one instruction, in the order the Step reads and raises
(43_loop_halt.md R83 to R86; 60_exceptions.md R106), and where an instruction's bytes stand. -/

namespace Sys2Proof.Machine

/-- Decode and execute, on the state after Fetch: the operand byte, where there is one, is at PC (R85, R86).
An illegal byte raises UnknownOpcode and no operand byte is read (R90). -/
def decodeAndExec (opcode : Byte) (s : State) : Host.Outcome State Fault Refusal :=
  match classifyOpcode opcode with
  | .illegal => raise (.unknownOpcode opcode) s
  | .inherent i => exec i s
  | .oneOperand o =>
    match memRead s.mem s.pc with
    | .error kind => raise kind s
    | .ok operand => exec (o.withOperand operand) s

/-- One Step of a running machine: the opcode is read at PC, then PC advances, then decode (R83, R84). -/
def runningStep (s : State) : Host.Outcome State Fault Refusal :=
  match memRead s.mem s.pc with
  | .error kind => raise kind s
  | .ok opcode =>
    match inc16 s.pc with
    | .error kind => raise kind s
    | .ok pc => decodeAndExec opcode (s.setPc pc)

/-- Bytes written at consecutive addresses from `addr`; a byte past the top of memory has no place and is
left out (log 4). -/
def placeBytes : List Byte → Nat → Memory → Memory
  | [], _, m => m
  | b :: rest, addr, m =>
    if addr < Config.memExtent then placeBytes rest (addr + 1) (m.write addr b) else m

end Sys2Proof.Machine
end

