-- ==== Sys2Proof/Machine/Step.lean ====
section
/-! DEFINITION. The step: a Step may be taken only when RUN = Running (43_loop_halt.md R83; 60_exceptions.md
R107). -/

namespace Sys2Proof.Machine

/-- One Step. When RUN is Idle no Step is taken until the host starts a run (R87, R91; log 1). When RUN is
Faulted the machine stays stopped with that fault (R107, R109; log 2). -/
def step (s : State) : Host.Outcome State Fault Refusal :=
  match s.run with
  | .idle => .refused .notRunning
  | .faulted kind => .fault kind
  | .running => runningStep s

/-- `s` with an instruction's bytes at PC and RUN = Running, so that the very next step runs it. It stands
for the host's Load or Poke and its Run (70_reset_and_hazards.md R117 to R119; log 4). -/
def State.withFetchWord (s : State) (nbits w : Nat) : State :=
  (s.setMem (placeBytes (tableBytes nbits w) s.pc.toNat s.mem)).setRun .running

end Sys2Proof.Machine
end

