-- ==== Sys2Proof/Machine/Sequencer.lean ====
section
/-! DEFINITION. The Step as the spec's pseudocode writes it: decode by the table, executors that take a MODE
and go through the resolver (43_loop_halt.md R83 to R86; 42_lda_add.md R74, R75). `step` decodes whole
instructions instead; that the two are one machine is an obligation. This file also gives the resolver's
unassigned modes their executors, and lists the byte reads of a Step (20_memory.md R32). -/

namespace Sys2Proof.Machine

/-- The byte an executor works on: resolve, then read one byte at EA (R63). A fault comes with the state the
Step has reached, since the writes before a raise stand (60_exceptions.md R108). -/
def operandOf (mode : Mode) (s : State) : Except (Fault × State) (Byte × State) :=
  match resolve mode s with
  | .error kind => .error (kind, s)
  | .ok (ea, s') =>
    match memRead s'.mem ea with
    | .error kind => .error (kind, s')
    | .ok value => .ok (value, s')

/-- LDA(mode) (R74). -/
def ldaMode (mode : Mode) (s : State) : Except (Fault × State) State :=
  match operandOf mode s with
  | .error raised => .error raised
  | .ok (value, s') => .ok (loadA value s')

/-- ADD(mode) (R75). -/
def addMode (mode : Mode) (s : State) : Except (Fault × State) State :=
  match operandOf mode s with
  | .error raised => .error raised
  | .ok (operand, s') => .ok (addA operand s')

/-- The executor has returned: the sequencer's single advance, for any mode with operand bytes (R86). -/
def afterExecutor (result : Except (Fault × State) State) : Host.Outcome State Fault Refusal :=
  match result with
  | .error (kind, s) => raise kind s
  | .ok s => operandAdvance s

/-- Phases Execute and Halt check, on the state after Fetch, for any operation with any mode tag (R83). -/
def runOperation (operation : Operation) (s : State) : Host.Outcome State Fault Refusal :=
  match operation with
  | .lda mode => afterExecutor (ldaMode mode s)
  | .add mode => afterExecutor (addMode mode s)
  | .halt => endRun s

/-- The Step of R83, for RUN = Running. -/
def sequencerStep (s : State) : Host.Outcome State Fault Refusal :=
  match memRead s.mem s.pc with
  | .error kind => raise kind s
  | .ok opcode =>
    match inc16 s.pc with
    | .error kind => raise kind s
    | .ok pc =>
      match lookupOpcode opcode with
      | some row => runOperation row.operation (s.setPc pc)
      | none => raise (.unknownOpcode opcode) (s.setPc pc)

/-- The addresses an executor of this mode reads, PC being the address of the first operand byte (R32). -/
def modeReads (mode : Mode) (s : State) : List Word :=
  match mode with
  | .immediate => [s.pc]
  | .direct => [s.pc, directAddress (s.mem.read s.pc.toNat)]
  | .relative => [s.pc, relativeAddress s.pc (s.mem.read s.pc.toNat)]
  | .indexedX =>
    [s.pc, s.pc + 1#16,
      indexedAddress s.x (hiLo (s.mem.read s.pc.toNat) (s.mem.read (s.pc + 1#16).toNat))]
  | .none => []

/-- The addresses a Step of a running machine reads, in order (R32): the opcode, then, if PC could advance
and the byte is in the table, what its mode reads. -/
def stepReads (s : State) : List Word :=
  let opcodeAt := s.pc
  if opcodeAt = 0xFFFF#16 then [opcodeAt]
  else
    match lookupOpcode (s.mem.read opcodeAt.toNat) with
    | none => [opcodeAt]
    | some row =>
      match row.operation with
      | .halt => [opcodeAt]
      | .lda mode => opcodeAt :: modeReads mode (s.setPc (opcodeAt + 1#16))
      | .add mode => opcodeAt :: modeReads mode (s.setPc (opcodeAt + 1#16))

end Sys2Proof.Machine
end

