-- ==== Sys2Proof/WellFormed.lean ====
section
/-! DEFINITION. Which terms are well-formed: instructions, rows of the decode table, loadable programs. -/

namespace Sys2Proof

/-- Every instruction term is well-formed: operand bytes have no illegal values (30_encoding.md R44, R45,
R52), and a byte operand is eight bits by its type. -/
def Instr.wellFormed : Instr → Bool
  | .halt => true
  | .halt3E => true
  | .ldaImm _ => true
  | .ldaDir _ => true
  | .addImm _ => true
  | .addDir _ => true

/-- The modes an opcode of this machine may select: Immediate and Direct (40_addressing_resolver.md R62). -/
def Mode.selectable : Mode → Bool
  | .immediate => true
  | .direct => true
  | .relative => false
  | .indexedX => false
  | .none => false

/-- LDA and ADD are wired only to a selectable mode; HALT has none to check (R61, R62, R100). -/
def Operation.wiredRight : Operation → Bool
  | .lda mode => mode.selectable
  | .add mode => mode.selectable
  | .halt => true

/-- The operand bytes an operation takes: those of its mode, none for HALT (30_encoding.md R42). -/
def Operation.operandBytes : Operation → Nat
  | .lda mode => mode.operandBytes
  | .add mode => mode.operandBytes
  | .halt => 0

/-- A row of the decode table is well-formed: its mode is selectable and its count is its mode's. -/
def OpcodeRow.wellFormed (row : OpcodeRow) : Bool :=
  row.operation.wiredRight && row.operandBytes == row.operation.operandBytes

/-- A byte sequence the host may load: no longer than MAX_LOAD_LEN (70_reset_and_hazards.md R117). -/
def loadable (program : List Byte) : Bool :=
  decide (program.length ≤ Config.maxLoadLen)

end Sys2Proof
end

