-- ==== Sys2Proof/Machine/HostOps.lean ====
section
/-! DEFINITION. The host's operations on the core: Construct, Reset, Load, Poke, SetReg, Run, Observe, and no
others (70_reset_and_hazards.md R114 to R120). -/

namespace Sys2Proof.Machine

/-- Every operation but Construct and Observe requires RUN = Idle; the host has no other move (R114;
decision D13, log 11). -/
def whenIdle (s : State) (op : Host.Outcome State Fault Refusal) : Host.Outcome State Fault Refusal :=
  match s.run with
  | .idle => op
  | .running => .refused .hostNotIdle
  | .faulted _ => .refused .hostNotIdle

/-- Construct (power-on): always allowed, and the only way out of Faulted (R115, R109). -/
def hostConstruct (_ : State) : Host.Outcome State Fault Refusal := .next State.construct

/-- X after `reset()` (R23; decision D9, log 10). -/
def xAfterReset (x : Word) : Word :=
  match Config.xOnReset with
  | .unchanged => x
  | .zero => 0x0000#16

/-- Reset: A and CCR are cleared, PC goes to the origin; Mem and RUN stay (R23, R116). -/
def hostReset (s : State) : Host.Outcome State Fault Refusal :=
  whenIdle s (.next ((((s.setA 0x00#8).setX (xAfterReset s.x)).setCcr 0x00#8).setPc Config.origin))

/-- Consecutive `MemWrite`s from an address upward (R117). -/
def loadBytes : List Byte → Word → Memory → Except Fault Memory
  | [], _, m => .ok m
  | b :: rest, addr, m =>
    match memWrite m addr b with
    | .error kind => .error kind
    | .ok m' => loadBytes rest (addr + 1#16) m'

/-- Load: the program's bytes from the origin upward, then PC <- origin; a sequence longer than MAX_LOAD_LEN
is refused and changes nothing (R24, R117; decision D12, log 12). -/
def hostLoad (program : List Byte) (s : State) : Host.Outcome State Fault Refusal :=
  whenIdle s
    (if loadable program then
      match loadBytes program Config.origin s.mem with
      | .error kind => .fault kind
      | .ok m => .next ((s.setMem m).setPc Config.origin)
    else .refused .loadTooLong)

/-- Poke: one byte at any address (R118). -/
def hostPoke (addr : Word) (v : Byte) (s : State) : Host.Outcome State Fault Refusal :=
  whenIdle s
    (match memWrite s.mem addr v with
    | .error kind => .fault kind
    | .ok m => .next (s.setMem m))

/-- What SetReg writes: a register among A, X, CCR, PC, and a value of its width (R118). -/
inductive RegWrite where
  | a (v : Byte)
  | x (v : Word)
  | ccr (v : Byte)
  | pc (v : Word)
deriving DecidableEq, Repr

/-- The state with one register set. -/
def RegWrite.apply : RegWrite → State → State
  | .a v, s => s.setA v
  | .x v, s => s.setX v
  | .ccr v, s => s.setCcr v
  | .pc v, s => s.setPc v

/-- SetReg (R118; decision D15, log 13). -/
def hostSetReg (w : RegWrite) (s : State) : Host.Outcome State Fault Refusal :=
  whenIdle s (.next (w.apply s))

/-- The start of a run: RUN <- Running, at the current PC (R91, R119). -/
def startRun (s : State) : Host.Outcome State Fault Refusal :=
  whenIdle s (.next (s.setRun .running))

/-- `while RUN = Running: Step`, for at most the given number of Steps (R91). -/
def runLoop : Nat → State → State
  | 0, s => s
  | k + 1, s =>
    match step s with
    | .next s' => runLoop k s'
    | .fault _ => s
    | .refused _ => s

/-- The bound on a run's Steps that the spec derives (R93); that it cuts no run short is an obligation
(log 14). -/
def maxRunSteps : Nat := 32768

/-- Run: started when RUN = Idle, it returns when a Step halts or faults (R91, R119). -/
def hostRun (s : State) : Host.Outcome State Fault Refusal :=
  match startRun s with
  | .next s' => .next (runLoop maxRunSteps s')
  | .fault kind => .fault kind
  | .refused why => .refused why

/-- The operations of R114 that change the machine. -/
inductive HostOp where
  | construct
  | reset
  | load (program : List Byte)
  | poke (addr : Word) (v : Byte)
  | setReg (w : RegWrite)
  | run
deriving DecidableEq, Repr

/-- One host operation (R114). -/
def HostOp.perform : HostOp → State → Host.Outcome State Fault Refusal
  | .construct, s => hostConstruct s
  | .reset, s => hostReset s
  | .load program, s => hostLoad program s
  | .poke addr v, s => hostPoke addr v s
  | .setReg w, s => hostSetReg w s
  | .run, s => hostRun s

/-- Host operations one after another, up to the first that answers no next state. -/
def HostOp.performAll : List HostOp → State → Host.Outcome State Fault Refusal
  | [], s => .next s
  | op :: rest, s =>
    match op.perform s with
    | .next s' => HostOp.performAll rest s'
    | .fault kind => .fault kind
    | .refused why => .refused why

/-- What the host may look at (R120). -/
inductive Probe where
  | a
  | x
  | ccr
  | pc
  | run
  | flag (f : Flag)
  | cell (addr : Word)
deriving DecidableEq, Repr

/-- What it sees. -/
inductive Reading where
  | byte (v : Byte)
  | word (v : Word)
  | bit (v : Bool)
  | latch (v : RunState)
deriving DecidableEq, Repr

/-- The value a probe finds; reading changes nothing (R120). -/
def Probe.reading : Probe → State → Reading
  | .a, s => .byte s.a
  | .x, s => .word s.x
  | .ccr, s => .byte s.ccr
  | .pc, s => .word s.pc
  | .run, s => .latch s.run
  | .flag f, s => .bit (flagSet f s.ccr)
  | .cell addr, s => .byte (s.mem.read addr.toNat)

/-- Observe: whenever RUN is not Running; while it is, nothing is observable (R120, log 16). -/
def hostObserve (p : Probe) (s : State) : Option Reading :=
  if s.run = .running then none else some (p.reading s)

end Sys2Proof.Machine
end

