-- ==== Sys2Proof/Safety.lean ====
section
/-! DEFINITION. What counts as a safe run, in the terms claims use: launch states, a normal end, and the
invariant that steps and host operations keep. -/

namespace Sys2Proof.Machine

/-- The direct-page offset an instruction reads, for the two in Direct mode (40_addressing_resolver.md R58). -/
def directOffset : Instr → Option Byte
  | .halt => none
  | .halt3E => none
  | .ldaImm _ => none
  | .ldaDir dd => some dd
  | .addImm _ => none
  | .addDir dd => some dd

/-- The direct-page offsets a program's own bytes read. No instruction branches, so a run passes over the bytes
in order, to the first HALT or illegal byte (43_loop_halt.md R92; log 21). -/
def directOffsets : List Byte → List Byte
  | [] => []
  | [_] => []
  | opcode :: operand :: rest =>
    match classifyOpcode opcode with
    | .inherent _ => []
    | .illegal => []
    | .oneOperand o => (directOffset (o.withOperand operand)).toList ++ directOffsets rest

/-- A run over a program meets a HALT or an illegal byte among the program's own bytes: it reads as code no byte
beyond them (log 21). -/
def endsWithin : List Byte → Bool
  | [] => false
  | [opcode] =>
    match classifyOpcode opcode with
    | .inherent _ => true
    | .illegal => true
    | .oneOperand _ => false
  | opcode :: _ :: rest =>
    match classifyOpcode opcode with
    | .inherent _ => true
    | .illegal => true
    | .oneOperand _ => endsWithin rest

/-- What a claim about a program says of the states it starts from (70_reset_and_hazards.md R129): the program;
the direct-page bytes with their stated values, by offset; and A and CCR, each where the claim's result depends on
it (`none` states nothing). X and the rest of memory are left unsaid. -/
structure LaunchPremises where
  program : List Byte
  directPage : List (Byte × Byte)
  a : Option Byte
  ccr : Option Byte
deriving DecidableEq, Repr

/-- Every direct-page byte the program reads has a stated value (R129). -/
def LaunchPremises.stateEveryRead (p : LaunchPremises) : Bool :=
  (directOffsets p.program).all (fun dd => (p.directPage.map Prod.fst).contains dd)

/-- A state a claim about a program starts from (70_reset_and_hazards.md R129; decision D15, log 13). -/
structure Launch (p : LaunchPremises) (s : State) : Prop where
  idle : s.run = .idle
  loaded : ∀ k (h : k < p.program.length), s.mem.read (Config.origin.toNat + k) = p.program[k]
  atOrigin : s.pc = Config.origin
  everyReadStated : p.stateEveryRead = true
  directPage : ∀ cell ∈ p.directPage, s.mem.read (directAddress cell.1).toNat = cell.2
  acc : ∀ v, p.a = some v → s.a = v
  ccr : ∀ v, p.ccr = some v → s.ccr = v

/-- How the host comes to a launch state (R121): Construct, Load, Poke of the operands, and SetReg where A or CCR
is stated. -/
def LaunchPremises.preparation (p : LaunchPremises) : List HostOp :=
  [.construct, .load p.program] ++
  p.directPage.map (fun cell => .poke (directAddress cell.1) cell.2) ++
  p.a.toList.map (fun v => .setReg (.a v)) ++
  p.ccr.toList.map (fun v => .setReg (.ccr v))

/-- A run from `s` ends normally in `t`: its last Step was a HALT (43_loop_halt.md R96). -/
def EndsNormally (s t : State) : Prop := hostRun s = .next t ∧ t.run = .idle

/-- A run from `s` ends abnormally with fault `kind` in `t` (R96). A faulted state is never a result. -/
def EndsAbnormally (kind : Fault) (s t : State) : Prop := hostRun s = .next t ∧ t.run = .faulted kind

/-- What a load of `v` does to `s`, giving `t`: the register, every flag, and what it leaves alone
(42_lda_add.md R74; 41_flag_unit.md R73). PC and RUN are said beside it. -/
structure LoadEffect (v : Byte) (s t : State) : Prop where
  acc : t.a = v
  z : flagSet .z t.ccr = (v == 0x00#8)
  n : flagSet .n t.ccr = v.getLsbD 7
  v : flagSet .v t.ccr = false
  c : flagSet .c t.ccr = flagSet .c s.ccr
  inert : ∀ f, f = .i ∨ f = .h ∨ f = .x ∨ f = .s → flagSet f t.ccr = flagSet f s.ccr
  index : t.x = s.x
  cells : ∀ addr, t.mem.read addr = s.mem.read addr

/-- What an addition of `m` does to `s`, giving `t`: the sum, every flag by its identity over the accumulator
before the add, and what it leaves alone (42_lda_add.md R75; 41_flag_unit.md R65 to R67, R73). -/
structure AddEffect (m : Byte) (s t : State) : Prop where
  acc : t.a = s.a + m
  c : flagSet .c t.ccr =
    (((s.a &&& m) ||| (m &&& ~~~(s.a + m)) ||| (~~~(s.a + m) &&& s.a)) &&& 0x80#8 != 0x00#8)
  v : flagSet .v t.ccr =
    (((m &&& s.a &&& ~~~(s.a + m)) ||| (~~~m &&& ~~~s.a &&& (s.a + m))) &&& 0x80#8 != 0x00#8)
  z : flagSet .z t.ccr = (s.a + m == 0x00#8)
  n : flagSet .n t.ccr = (s.a + m).getLsbD 7
  inert : ∀ f, f = .i ∨ f = .h ∨ f = .x ∨ f = .s → flagSet f t.ccr = flagSet f s.ccr
  index : t.x = s.x
  cells : ∀ addr, t.mem.read addr = s.mem.read addr

/-- The latch says only what the six-opcode machine can record, and PC agrees with it (60_exceptions.md R98
to R104, R108): PcOverflow is held with PC = 0xFFFF, UnknownOpcode with PC just past the illegal byte. -/
def State.latchOk (s : State) : Bool :=
  match s.run with
  | .idle => true
  | .running => true
  | .faulted (.pcOverflow w) => w == 0xFFFF#16 && s.pc == 0xFFFF#16
  | .faulted (.unknownOpcode b) =>
    s.pc != 0x0000#16 && s.mem.read (s.pc - 1#16).toNat == b && (lookupOpcode b).isNone
  | .faulted .invalidAddressingMode => false
  | .faulted (.addressWrap _) => false
  | .faulted (.extentViolation _) => false

/-- The invariant: memory is in its canonical form and the latch agrees with the rest of the state. -/
def State.inv (s : State) : Bool := s.mem.wf && s.latchOk

end Sys2Proof.Machine
end

