-- ==== Sys2Proof/Certificates/Slice0/Obligations.lean ====
section
/-! DEFINITION. What is claimed of the model: each statement says which rules of spec/ it formalises. A
statement marked "model's choice" rests on a decision that the log entry named there records. -/

open Sys2Proof Sys2Proof.Machine

/-! ## Encoding (30_encoding.md) -/

/-- The decoder reads an instruction and leaves a rest exactly when the bytes are that instruction's encoding
followed by that rest: every operand value survives, and no other bytes decode (30_encoding.md sections 1 and 3). -/
def Obligations.DecodeInvertsEncode : Prop :=
  ∀ (bytes : List Byte) (i : Instr) (rest : List Byte), decode bytes = .ok (i, rest) ↔ bytes = encode i ++ rest

/-- R43, R44, R45: the three formats, each operand value legal, and DIR8's operand the low half of an address
whose high half is 0. -/
def Obligations.FormatsDecodeEveryOperand : Prop :=
  ∀ (operand : Byte) (rest : List Byte),
    decode (0x00#8 :: rest) = .ok (.halt, rest) ∧
    decode (0x3E#8 :: rest) = .ok (.halt3E, rest) ∧
    decode (0x86#8 :: operand :: rest) = .ok (.ldaImm operand, rest) ∧
    decode (0x8B#8 :: operand :: rest) = .ok (.addImm operand, rest) ∧
    decode (0x96#8 :: operand :: rest) = .ok (.ldaDir operand, rest) ∧
    decode (0x9B#8 :: operand :: rest) = .ok (.addDir operand, rest) ∧
    (directAddress operand).toNat = operand.toNat

/-- Words written out from 30_encoding.md section 3 and 95_test_vectors.md S3, S8, P1 decode to the
instructions they stand for, also through the table's numbering. -/
def Obligations.SampleWordsDecode : Prop :=
  decode [0x86#8, 0xFE#8, 0x8B#8, 0xF5#8, 0x3E#8] = .ok (.ldaImm 0xFE#8, [0x8B#8, 0xF5#8, 0x3E#8]) ∧
  decode [0x96#8, 0x20#8, 0x3E#8] = .ok (.ldaDir 0x20#8, [0x3E#8]) ∧
  decode [0x9B#8, 0x10#8] = .ok (.addDir 0x10#8, []) ∧
  decodeTableWord 16 0xF58B = some (.addImm 0xF5#8) ∧
  decodeTableWord 8 0x3E = some .halt3E ∧
  decodeTableWord 8 0x00 = some .halt ∧
  decodeTableWord 8 0x18 = none

/-- R49: the decode table has exactly the six rows, each matched on all eight bits, with the instruction,
mode and operand-byte count of the rule's table; the length is 1 plus that count. -/
def Obligations.DecodeTableHasExactlySixRows : Prop :=
  opcodeTable.length = 6 ∧
  (∀ (b : Byte) (row : OpcodeRow), lookupOpcode b = some row ↔
    row.opcode = b ∧
      (row = ⟨0x00#8, .halt, 0⟩ ∨ row = ⟨0x3E#8, .halt, 0⟩ ∨
       row = ⟨0x86#8, .lda .immediate, 1⟩ ∨ row = ⟨0x8B#8, .add .immediate, 1⟩ ∨
       row = ⟨0x96#8, .lda .direct, 1⟩ ∨ row = ⟨0x9B#8, .add .direct, 1⟩)) ∧
  ∀ b : Byte, instrLength b = (lookupOpcode b).map (fun row => 1 + row.operandBytes)

/-- The decoder and the decode table agree: an instruction is decoded exactly where the table has a row, and
the instruction's operation and mode are the row's (30_encoding.md section 3, 43_loop_halt.md section 1). -/
def Obligations.DecoderFollowsTable : Prop :=
  ∀ (b d : Byte),
    match lookupOpcode b with
    | none => decode [b, d] = .error (.unknownOpcode b)
    | some row => row.wellFormed = true ∧
        ∃ i rest, decode [b, d] = .ok (i, rest) ∧
          match row.operation with
          | .halt => (i = .halt ∨ i = .halt3E) ∧ rest = [d]
          | .lda mode => ((mode = .immediate ∧ i = .ldaImm d) ∨ (mode = .direct ∧ i = .ldaDir d)) ∧ rest = []
          | .add mode => ((mode = .immediate ∧ i = .addImm d) ∨ (mode = .direct ∧ i = .addDir d)) ∧ rest = []

/-- The assembler spelling tells instructions apart (30_encoding.md section 5). Model's choice: the spelling is
the spec's decision D11 (log 17). -/
def Obligations.AssemblySpellingIsInjective : Prop :=
  ∀ i j : Instr, assembly i = assembly j → i = j

/-! ## The flag generator (41_flag_unit.md) -/

/-- R64: Z and N are both assigned, no other bit is written, and they are never both 1. -/
def Obligations.UpdateZNAssignsZeroAndNegative : Prop :=
  ∀ (v ccr : Byte),
    flagSet .z (updateZN v ccr) = (v == 0x00#8) ∧
    flagSet .n (updateZN v ccr) = v.getLsbD 7 ∧
    (∀ f, f ≠ .z → f ≠ .n → flagSet f (updateZN v ccr) = flagSet f ccr) ∧
    ¬ (flagSet .z (updateZN v ccr) = true ∧ flagSet .n (updateZN v ccr) = true)

/-- R65: the carry by the masked identity and, equivalently, by the identity on single bits; an operand of 0
never carries; the bit an addition writes for it is C. -/
def Obligations.CarryIsBitSevenIdentity : Prop :=
  ∀ (a m ccr : Byte),
    carryOf a m (a + m) = (((a &&& m) ||| (m &&& ~~~(a + m)) ||| (~~~(a + m) &&& a)) &&& 0x80#8 != 0x00#8) ∧
    carryOf a m (a + m) =
      ((a.getLsbD 7 && m.getLsbD 7) || (m.getLsbD 7 && !(a + m).getLsbD 7) || (!(a + m).getLsbD 7 && a.getLsbD 7)) ∧
    carryOf a 0x00#8 (a + 0x00#8) = false ∧
    flagSet .c (addFlags a m ccr) = carryOf a m (a + m)

/-- R66: the overflow by the masked identity and on single bits; addends of opposite sign never overflow; the
bit an addition writes for it is V. -/
def Obligations.OverflowIsBitSevenIdentity : Prop :=
  ∀ (a m ccr : Byte),
    overflowOf a m (a + m) = (((m &&& a &&& ~~~(a + m)) ||| (~~~m &&& ~~~a &&& (a + m))) &&& 0x80#8 != 0x00#8) ∧
    overflowOf a m (a + m) =
      ((m.getLsbD 7 && a.getLsbD 7 && !(a + m).getLsbD 7) ||
       (!m.getLsbD 7 && !a.getLsbD 7 && (a + m).getLsbD 7)) ∧
    (a.getLsbD 7 ≠ m.getLsbD 7 → overflowOf a m (a + m) = false) ∧
    flagSet .v (addFlags a m ccr) = overflowOf a m (a + m)

/-- The carry is the unsigned overflow and V the signed one, for all pairs of bytes (41_flag_unit.md section 3,
marked derived there). -/
def Obligations.CarryAndOverflowMeanRangeOverflow : Prop :=
  ∀ (a m : Byte),
    (carryOf a m (a + m) = true ↔ 256 ≤ a.toNat + m.toNat) ∧
    (overflowOf a m (a + m) = true ↔ (a.toInt + m.toInt < -128 ∨ 127 < a.toInt + m.toInt))

/-- R70: the flag generator never writes I, H, CCR.X or S. -/
def Obligations.FlagGeneratorNeverWritesInertBits : Prop :=
  ∀ (a m v ccr : Byte),
    (updateZN v ccr).extractLsb' 4 4 = ccr.extractLsb' 4 4 ∧
    (loadFlags v ccr).extractLsb' 4 4 = ccr.extractLsb' 4 4 ∧
    (addFlags a m ccr).extractLsb' 4 4 = ccr.extractLsb' 4 4

/-- No stale flag survives: after an addition the low four bits depend on the addends alone, after a load V, Z, N
depend on the byte alone (41_flag_unit.md section 2; the spec's decision D16, log 18). -/
def Obligations.FlagWritesAreAssignments : Prop :=
  ∀ (a m v ccr ccr' : Byte),
    (addFlags a m ccr).extractLsb' 0 4 = (addFlags a m ccr').extractLsb' 0 4 ∧
    (loadFlags v ccr).extractLsb' 1 3 = (loadFlags v ccr').extractLsb' 1 3

/-- Addition commutes in its value and in all four flags (42_lda_add.md section 3, marked derived there). -/
def Obligations.AdditionCommutesWithItsFlags : Prop :=
  ∀ (a m ccr : Byte), a + m = m + a ∧ addFlags a m ccr = addFlags m a ccr

/-! ## Memory and the resolver (20_memory.md, 40_addressing_resolver.md) -/

/-- A byte read returns the value last written to that cell, every other cell is untouched, and no access to a
16-bit address faults (20_memory.md sections 1 and 2; the extent is the spec's decision D1, log 6). -/
def Obligations.MemoryReadsBackWrites : Prop :=
  ∀ (m : Memory) (addr addr' : Word) (v : Byte), m.wf = true →
    ∃ m', memWrite m addr v = .ok m' ∧ m'.wf = true ∧
      memRead m' addr = .ok v ∧
      (addr' ≠ addr → memRead m' addr' = memRead m addr')

/-- A word read is big-endian, two byte reads; at 0xFFFF it raises AddressWrap (20_memory.md section 2). Model's
choice for the last clause: the spec's decision D2 (log 8). -/
def Obligations.WordReadIsBigEndian : Prop :=
  ∀ (m : Memory) (addr : Word),
    (addr ≠ 0xFFFF#16 → ∃ w, memReadWord m addr = .ok w ∧
      w.toNat = 256 * (m.read addr.toNat).toNat + (m.read (addr.toNat + 1)).toNat) ∧
    (addr = 0xFFFF#16 → memReadWord m addr = .error (.addressWrap 0xFFFF#16))

/-- R58, with Immediate beside it: Immediate resolves to PC itself; Direct resolves to the zero-extended byte at
PC, in the direct page whatever PC and X hold; neither faults or changes the state. -/
def Obligations.ResolverImmediateAndDirect : Prop :=
  ∀ s : State,
    resolve .immediate s = .ok (s.pc, s) ∧
    ∃ ea, resolve .direct s = .ok (ea, s) ∧ ea.toNat = (s.mem.read s.pc.toNat).toNat ∧ ea.toNat < 256

/-- Relative resolves to PC plus the zero-extended offset byte, modulo 65536, and moves nothing
(40_addressing_resolver.md section 2). Model's choice: the spec's decision D5 (log 9). -/
def Obligations.ResolverRelativeZeroExtends : Prop :=
  ∀ s : State, ∃ ea, resolve .relative s = .ok (ea, s) ∧
    ea.toNat = (s.pc.toNat + (s.mem.read s.pc.toNat).toNat) % 65536

/-- IndexedX resolves to X plus the big-endian word at PC, modulo 65536, and advances PC by one; called with
PC = 0xFFFF it raises AddressWrap (40_addressing_resolver.md section 2). Model's choice: the spec's decisions D2
and D4 (log 8, log 9). -/
def Obligations.ResolverIndexedAdvancesOnce : Prop :=
  ∀ s : State,
    (s.pc ≠ 0xFFFF#16 → ∃ ea, resolve .indexedX s = .ok (ea, s.setPc (s.pc + 1#16)) ∧
      ea.toNat = (s.x.toNat + 256 * (s.mem.read s.pc.toNat).toNat + (s.mem.read (s.pc.toNat + 1)).toNat) % 65536) ∧
    (s.pc = 0xFFFF#16 → resolve .indexedX s = .error (.addressWrap 0xFFFF#16))

/-- The tag None raises InvalidAddressingMode; no row of the table selects it, and no Step records that fault
(40_addressing_resolver.md section 2, the unreachability marked derived there). -/
def Obligations.ResolverNoneFailsAndIsUnreachable : Prop :=
  (∀ s : State, resolve .none s = .error .invalidAddressingMode) ∧
  (∀ (b : Byte) (row : OpcodeRow), lookupOpcode b = some row →
    row.operation ≠ .lda .none ∧ row.operation ≠ .add .none) ∧
  ∀ s t : State, step s = .next t → t.run ≠ .faulted .invalidAddressingMode

/-! ## The executors (42_lda_add.md) -/

/-- R74: LDA(mode) for any mode that resolves; PC moves only through the resolver, RUN not at all, and a
fault of the resolver is the executor's. -/
def Obligations.LoadExecutorCommitsByteAndFlags : Prop :=
  ∀ (mode : Mode) (s : State),
    (∀ ea s', resolve mode s = .ok (ea, s') →
      ∃ t, ldaMode mode s = .ok t ∧ LoadEffect (s.mem.read ea.toNat) s t ∧ t.pc = s'.pc ∧ t.run = s.run ∧
        (mode ≠ .indexedX → t.pc = s.pc)) ∧
    (∀ kind, resolve mode s = .error kind → ldaMode mode s = .error (kind, s))

/-- R75 and R67: ADD(mode) for any mode that resolves, the carry and overflow taken from the accumulator
before the add. -/
def Obligations.AddExecutorCommitsSumAndFlags : Prop :=
  ∀ (mode : Mode) (s : State),
    (∀ ea s', resolve mode s = .ok (ea, s') →
      ∃ t, addMode mode s = .ok t ∧ AddEffect (s.mem.read ea.toNat) s t ∧ t.pc = s'.pc ∧ t.run = s.run ∧
        (mode ≠ .indexedX → t.pc = s.pc)) ∧
    (∀ kind, resolve mode s = .error kind → addMode mode s = .error (kind, s))

/-! ## The six instructions: result, completion and frame -/

/-- LDA #$ii completes, with its whole effect, wherever PC can advance over the operand byte (42_lda_add.md
section 2). -/
def Obligations.LdaImmediateLoadsItsOperand : Prop :=
  ∀ (ii : Byte) (s : State), s.pc ≠ 0xFFFF#16 →
    ∃ t, exec (.ldaImm ii) s = .next t ∧ LoadEffect ii s t ∧ t.pc = s.pc + 1#16 ∧ t.run = s.run

/-- LDA $dd completes, with its whole effect, wherever PC can advance over the operand byte (42_lda_add.md
section 2). -/
def Obligations.LdaDirectLoadsFromDirectPage : Prop :=
  ∀ (dd : Byte) (s : State), s.pc ≠ 0xFFFF#16 →
    ∃ t, exec (.ldaDir dd) s = .next t ∧ LoadEffect (s.mem.read dd.toNat) s t ∧ t.pc = s.pc + 1#16 ∧ t.run = s.run

/-- ADD #$ii completes, with its whole effect, wherever PC can advance over the operand byte (42_lda_add.md
section 2). -/
def Obligations.AddImmediateAddsItsOperand : Prop :=
  ∀ (ii : Byte) (s : State), s.pc ≠ 0xFFFF#16 →
    ∃ t, exec (.addImm ii) s = .next t ∧ AddEffect ii s t ∧ t.pc = s.pc + 1#16 ∧ t.run = s.run

/-- ADD $dd completes, with its whole effect, wherever PC can advance over the operand byte (42_lda_add.md
section 2). -/
def Obligations.AddDirectAddsFromDirectPage : Prop :=
  ∀ (dd : Byte) (s : State), s.pc ≠ 0xFFFF#16 →
    ∃ t, exec (.addDir dd) s = .next t ∧ AddEffect (s.mem.read dd.toNat) s t ∧ t.pc = s.pc + 1#16 ∧ t.run = s.run

/-- HALT and HALT.3E complete in every state: RUN goes to Idle and A, X, CCR, PC and every cell stay
(43_loop_halt.md section 2; RUN is the spec's decision D6, log 1). -/
def Obligations.HaltsEndTheRunAndChangeNothingElse : Prop :=
  ∀ s : State, ∃ t, exec .halt s = .next t ∧ exec .halt3E s = .next t ∧
    t.run = .idle ∧ t.a = s.a ∧ t.x = s.x ∧ t.ccr = s.ccr ∧ t.pc = s.pc ∧
    ∀ addr, t.mem.read addr = s.mem.read addr

/-- R68: a load forces V to 0 whatever it was and does not touch C, in the two forms and in every mode. -/
def Obligations.LoadForcesVClearAndKeepsC : Prop :=
  (∀ (operand : Byte) (s t : State),
    (exec (.ldaImm operand) s = .next t ∨ exec (.ldaDir operand) s = .next t) →
      flagSet .v t.ccr = false ∧ flagSet .c t.ccr = flagSet .c s.ccr) ∧
  ∀ (mode : Mode) (s t : State), ldaMode mode s = .ok t →
    flagSet .v t.ccr = false ∧ flagSet .c t.ccr = flagSet .c s.ccr

/-- What no instruction changes when exec gives a next state, faulted or not: X, every cell, the memory list and
CCR[7:4]; HALT also leaves A, CCR and PC; a load leaves C; LDA and ADD leave RUN, but for PcOverflow where PC cannot
advance (10_state.md sections 3 and 4, 20_memory.md section 2, 41_flag_unit.md section 3; the fault is the spec's
decision D3, log 7). No form stores to memory. -/
def Obligations.InstructionFrame : Prop :=
  ∀ (i : Instr) (s t : State), exec i s = .next t →
    t.x = s.x ∧ t.mem = s.mem ∧ (∀ addr, t.mem.read addr = s.mem.read addr) ∧
    t.ccr.extractLsb' 4 4 = s.ccr.extractLsb' 4 4 ∧
    ((i = .halt ∨ i = .halt3E) → t.a = s.a ∧ t.ccr = s.ccr ∧ t.pc = s.pc) ∧
    (∀ operand, (i = .ldaImm operand ∨ i = .ldaDir operand) → flagSet .c t.ccr = flagSet .c s.ccr) ∧
    ((i ≠ .halt ∧ i ≠ .halt3E) →
      t.run = s.run ∨ (s.pc = 0xFFFF#16 ∧ t.run = .faulted (.pcOverflow 0xFFFF#16)))

/-! ## The Step (43_loop_halt.md, 60_exceptions.md) -/

/-- When the bytes at PC decode to an instruction, the Step is that instruction's exec on the state whose PC is
past the opcode; exec itself moves PC past the operand byte (43_loop_halt.md section 1; log 5). -/
def Obligations.StepRunsTheDecodedInstruction : Prop :=
  ∀ (s : State) (i : Instr) (rest : List Byte), s.run = .running → s.pc ≠ 0xFFFF#16 →
    decode [s.mem.read s.pc.toNat, s.mem.read (s.pc.toNat + 1)] = .ok (i, rest) →
      step s = exec i (s.setPc (s.pc + 1#16))

/-- The fetch word of an instruction makes the very next step run it, and the placing changes only the bytes at
PC and RUN. Model's choice: withFetchWord stands for the host's Load and Run (log 4). -/
def Obligations.FetchWordRunsTheInstruction : Prop :=
  ∀ (i : Instr) (s : State), s.mem.wf = true → s.pc ≠ 0xFFFF#16 →
    ∃ w u, decodeTableWord (8 * (encode i).length) w = some i ∧
      s.withFetchWord (8 * (encode i).length) w = u ∧
      step u = exec i (u.setPc (s.pc + 1#16)) ∧
      u.a = s.a ∧ u.x = s.x ∧ u.ccr = s.ccr ∧ u.pc = s.pc ∧ u.run = .running ∧
      ∀ addr, addr ≠ s.pc.toNat → addr ≠ s.pc.toNat + 1 → u.mem.read addr = s.mem.read addr

/-- A running machine always steps; an idle one takes no Step, a faulted one stays stopped with its fault
(43_loop_halt.md section 1, 60_exceptions.md section 4; model's choice, log 1 and log 2). -/
def Obligations.StepIsTakenExactlyWhileRunning : Prop :=
  ∀ s : State,
    ((∃ t, step s = .next t) ↔ s.run = .running) ∧
    (s.run = .idle → step s = .refused .notRunning) ∧
    (∀ kind, s.run = .faulted kind → step s = .fault kind)

/-- Whole Steps of the four two-byte opcodes complete with PC at their own address + 2, and of the two halts with
PC + 1 and RUN Idle, A and CCR kept (43_loop_halt.md section 3, marked derived there; RUN and the bound at the top
of memory are the spec's decisions D6 and D3, log 1 and log 7). -/
def Obligations.StepAdvancesPcByInstructionLength : Prop :=
  ∀ s : State, s.run = .running →
    ((s.mem.read s.pc.toNat = 0x86#8 ∨ s.mem.read s.pc.toNat = 0x96#8 ∨
      s.mem.read s.pc.toNat = 0x8B#8 ∨ s.mem.read s.pc.toNat = 0x9B#8) → s.pc.toNat + 2 ≤ 0xFFFF →
      ∃ t, step s = .next t ∧ t.pc.toNat = s.pc.toNat + 2 ∧ t.run = .running) ∧
    ((s.mem.read s.pc.toNat = 0x00#8 ∨ s.mem.read s.pc.toNat = 0x3E#8) → s.pc.toNat + 1 ≤ 0xFFFF →
      ∃ t, step s = .next t ∧ t.pc.toNat = s.pc.toNat + 1 ∧ t.run = .idle ∧ t.a = s.a ∧ t.ccr = s.ccr)

/-- The whole Steps of LDA and ADD, from the bytes in memory: what each loads or adds (42_lda_add.md section 2;
95_test_vectors.md sections 2.1 and 2.3). -/
def Obligations.StepExecutesLoadsAndAddsFromMemory : Prop :=
  ∀ s : State, s.run = .running → s.pc.toNat + 2 ≤ 0xFFFF →
    ∀ d : Byte, s.mem.read (s.pc.toNat + 1) = d →
      (s.mem.read s.pc.toNat = 0x86#8 → ∃ t, step s = .next t ∧ LoadEffect d s t) ∧
      (s.mem.read s.pc.toNat = 0x96#8 → ∃ t, step s = .next t ∧ LoadEffect (s.mem.read d.toNat) s t) ∧
      (s.mem.read s.pc.toNat = 0x8B#8 → ∃ t, step s = .next t ∧ AddEffect d s t) ∧
      (s.mem.read s.pc.toNat = 0x9B#8 → ∃ t, step s = .next t ∧ AddEffect (s.mem.read d.toNat) s t)

/-- At PC = 0xFFFF the fetch advance faults, whatever the byte there: RUN holds PcOverflow(0xFFFF) and nothing
else has changed (60_exceptions.md sections 1, 3 and 4). Model's choice: the spec's decision D3 (log 7). -/
def Obligations.FetchAtTopOfMemoryFaults : Prop :=
  ∀ s : State, s.run = .running → s.pc = 0xFFFF#16 →
    ∃ t, step s = .next t ∧ t.run = .faulted (.pcOverflow 0xFFFF#16) ∧
      t.a = s.a ∧ t.x = s.x ∧ t.ccr = s.ccr ∧ t.pc = s.pc ∧ t.mem = s.mem

/-- With a two-byte opcode at 0xFFFE the operand advance faults after the executor has committed: A and CCR are
written, PC is 0xFFFF (60_exceptions.md section 4). Model's choice: the spec's decisions D3 and D7 (log 7, log 2). -/
def Obligations.OperandAdvanceFaultKeepsCommit : Prop :=
  ∀ (s : State) (d : Byte), s.run = .running → s.pc = 0xFFFE#16 → s.mem.read 0xFFFF = d →
    (s.mem.read 0xFFFE = 0x86#8 → ∃ t, step s = .next t ∧ LoadEffect d s t ∧
      t.pc = 0xFFFF#16 ∧ t.run = .faulted (.pcOverflow 0xFFFF#16)) ∧
    (s.mem.read 0xFFFE = 0x96#8 → ∃ t, step s = .next t ∧ LoadEffect (s.mem.read d.toNat) s t ∧
      t.pc = 0xFFFF#16 ∧ t.run = .faulted (.pcOverflow 0xFFFF#16)) ∧
    (s.mem.read 0xFFFE = 0x8B#8 → ∃ t, step s = .next t ∧ AddEffect d s t ∧
      t.pc = 0xFFFF#16 ∧ t.run = .faulted (.pcOverflow 0xFFFF#16)) ∧
    (s.mem.read 0xFFFE = 0x9B#8 → ∃ t, step s = .next t ∧ AddEffect (s.mem.read d.toNat) s t ∧
      t.pc = 0xFFFF#16 ∧ t.run = .faulted (.pcOverflow 0xFFFF#16))

/-- The 250 bytes outside the table are illegal: the decoder rejects each by name, and a Step that fetches one
goes to Faulted(UnknownOpcode(byte)) with PC past the byte and everything else as before (30_encoding.md section 4,
60_exceptions.md section 1). Model's choice: a fault is a next state (log 2). -/
def Obligations.IllegalOpcodeFaultsByName : Prop :=
  (∀ b : Byte, lookupOpcode b = none ↔
    (0x01 ≤ b.toNat ∧ b.toNat ≤ 0x3D) ∨ (0x3F ≤ b.toNat ∧ b.toNat ≤ 0x85) ∨ (0x87 ≤ b.toNat ∧ b.toNat ≤ 0x8A) ∨
    (0x8C ≤ b.toNat ∧ b.toNat ≤ 0x95) ∨ (0x97 ≤ b.toNat ∧ b.toNat ≤ 0x9A) ∨ 0x9C ≤ b.toNat) ∧
  ∀ (b : Byte), b ∉ [0x00#8, 0x3E#8, 0x86#8, 0x8B#8, 0x96#8, 0x9B#8] →
    (∀ rest, decode (b :: rest) = .error (.unknownOpcode b)) ∧
    ∀ s : State, s.run = .running → s.pc ≠ 0xFFFF#16 → s.mem.read s.pc.toNat = b →
      ∃ t, step s = .next t ∧ t.run = .faulted (.unknownOpcode b) ∧ t.pc = s.pc + 1#16 ∧
        t.a = s.a ∧ t.x = s.x ∧ t.ccr = s.ccr ∧ t.mem = s.mem

/-- A Step faults only as the two kinds that can occur say: PcOverflow(0xFFFF) with PC left at 0xFFFF, or
UnknownOpcode of the illegal byte it fetched (60_exceptions.md section 1). Model's choice: PcOverflow is the spec's
decision D3 (log 7), and the latch is log 2. -/
def Obligations.OnlyTwoFaultKindsOccur : Prop :=
  ∀ (s t : State) (kind : Fault), step s = .next t → t.run = .faulted kind →
    (kind = .pcOverflow 0xFFFF#16 ∧ t.pc = 0xFFFF#16) ∨
    (kind = .unknownOpcode (s.mem.read s.pc.toNat) ∧ lookupOpcode (s.mem.read s.pc.toNat) = none ∧
      t.pc.toNat = s.pc.toNat + 1)

/-- A Step halts exactly when it fetches a HALT opcode below the top of memory: the halt check looks at nothing
else (43_loop_halt.md sections 1 and 2). Model's choice: the fault of a HALT at the top is the spec's decision D3
(log 7), and the latch is log 1. -/
def Obligations.StepHaltsExactlyOnHaltOpcodes : Prop :=
  ∀ s t : State, step s = .next t →
    (t.run = .idle ↔ s.mem.read s.pc.toNat ∈ Config.haltOpcodes ∧ s.pc ≠ 0xFFFF#16)

/-- No Step decreases PC, and one that continues increases it by exactly 2 (43_loop_halt.md section 3, marked
derived there; no wrap is the spec's decision D3, log 7). -/
def Obligations.PcNeverDecreases : Prop :=
  ∀ s t : State, step s = .next t →
    s.pc.toNat ≤ t.pc.toNat ∧ (t.run = .running → t.pc.toNat = s.pc.toNat + 2)

/-- No Step, whatever its outcome, changes a cell, X, or CCR[7:4] (20_memory.md section 2, 10_state.md sections 3
and 4, marked derived there). -/
def Obligations.StepPreservesMemoryIndexAndInertFlags : Prop :=
  ∀ s t : State, step s = .next t →
    t.mem = s.mem ∧ t.x = s.x ∧
    ∀ f, f = .i ∨ f = .h ∨ f = .x ∨ f = .s → flagSet f t.ccr = flagSet f s.ccr

/-- No Step reads X: with another X the Step is the same but for that X (10_state.md section 3, marked derived
there). -/
def Obligations.StepIgnoresIndexRegister : Prop :=
  ∀ (s t : State) (x : Word), step s = .next t → step (s.setX x) = .next (t.setX x)

/-- No instruction reads a flag: with another CCR the Step ends with the same A, PC, memory and RUN (10_state.md
section 4, marked derived there). -/
def Obligations.StepReadsNoFlag : Prop :=
  ∀ (s t : State) (ccr : Byte), step s = .next t →
    ∃ t', step (s.setCcr ccr) = .next t' ∧ t'.a = t.a ∧ t'.pc = t.pc ∧ t'.mem = t.mem ∧ t'.run = t.run

/-- A Step reads the bytes listed for it, at most three, and its outcome depends on no other byte of memory
(20_memory.md section 2). -/
def Obligations.StepDependsOnlyOnBytesItReads : Prop :=
  ∀ (s t : State) (m : Memory), step s = .next t →
    (∀ addr ∈ stepReads s, m.read addr.toNat = s.mem.read addr.toNat) →
      step (s.setMem m) = .next (t.setMem m) ∧ (stepReads s).length ≤ 3

/-- The model's step and the spec's Step pseudocode (the table, the mode tags, the resolver and the executors that
go through it) are one machine, in every running state (43_loop_halt.md section 1). -/
def Obligations.StepIsTheSpecSequencer : Prop :=
  ∀ s : State, s.run = .running → step s = sequencerStep s

/-- A whole instruction in the unassigned Indexed-by-X mode, were it given an opcode, leaves PC at its own address
+ 3, and one in Relative mode at + 2, with the load or the add done (43_loop_halt.md section 3, 95_test_vectors.md
section 2.4). Model's choice: the spec's decisions D4 and D5 (log 9). -/
def Obligations.UnassignedModesRunAsSpecified : Prop :=
  ∀ s : State,
    (s.pc.toNat + 2 ≤ 0xFFFF → ∀ off : Nat,
      off = 256 * (s.mem.read s.pc.toNat).toNat + (s.mem.read (s.pc.toNat + 1)).toNat →
      (∃ t, runOperation (.lda .indexedX) s = .next t ∧
        LoadEffect (s.mem.read ((s.x.toNat + off) % 65536)) s t ∧ t.pc.toNat = s.pc.toNat + 2 ∧ t.run = s.run) ∧
      (∃ t, runOperation (.add .indexedX) s = .next t ∧
        AddEffect (s.mem.read ((s.x.toNat + off) % 65536)) s t ∧ t.pc.toNat = s.pc.toNat + 2 ∧ t.run = s.run)) ∧
    (s.pc ≠ 0xFFFF#16 → ∀ off : Nat, off = (s.mem.read s.pc.toNat).toNat →
      (∃ t, runOperation (.lda .relative) s = .next t ∧
        LoadEffect (s.mem.read ((s.pc.toNat + off) % 65536)) s t ∧ t.pc.toNat = s.pc.toNat + 1 ∧ t.run = s.run) ∧
      (∃ t, runOperation (.add .relative) s = .next t ∧
        AddEffect (s.mem.read ((s.pc.toNat + off) % 65536)) s t ∧ t.pc.toNat = s.pc.toNat + 1 ∧ t.run = s.run))

/-! ## Runs (43_loop_halt.md section 3, 70_reset_and_hazards.md section 6) -/

/-- Every run ends: after 32,768 Steps from any running state RUN is not Running, more Steps change nothing, and
the host's Run, accepted when idle, always returns (43_loop_halt.md section 3, marked derived there; it rests on the
spec's decision D3, log 7 and log 14). -/
def Obligations.EveryRunEndsWithinBound : Prop :=
  (∀ s : State, s.run = .running → (runLoop 32768 s).run ≠ .running) ∧
  (∀ (s : State) (k : Nat), runLoop (32768 + k) s = runLoop 32768 s) ∧
  ∀ s : State, s.run = .idle → ∃ t, hostRun s = .next t ∧ t.run ≠ .running

/-- What a whole run keeps: memory, X and CCR[7:4]; and PC at the end is greater than PC at the start, except that
a run started at 0xFFFF ends with PC still 0xFFFF and RUN = Faulted(PcOverflow(0xFFFF)) (70_reset_and_hazards.md
section 6, marked derived there). Model's choice, in the two PC clauses: the spec's decision D3, no wrap (log 7). -/
def Obligations.RunPreservesMemoryAndMovesPcUp : Prop :=
  ∀ s t : State, hostRun s = .next t →
    t.mem = s.mem ∧ t.x = s.x ∧ t.ccr.extractLsb' 4 4 = s.ccr.extractLsb' 4 4 ∧
    (s.pc ≠ 0xFFFF#16 → s.pc.toNat < t.pc.toNat) ∧
    (s.pc = 0xFFFF#16 → t.pc = 0xFFFF#16 ∧ t.run = .faulted (.pcOverflow 0xFFFF#16))

/-- The end of a run depends only on A, CCR, PC, the bytes at and above the start PC and the direct page
(70_reset_and_hazards.md section 6, marked derived there): not on X, nor on any other byte. That code is read only
from the start PC upward rests on the spec's decision D3, no wrap (log 7). -/
def Obligations.RunDependsOnlyOnCodeAndDirectPage : Prop :=
  ∀ s s' t : State, hostRun s = .next t → s'.run = .idle →
    s'.a = s.a → s'.ccr = s.ccr → s'.pc = s.pc →
    (∀ addr, s.pc.toNat ≤ addr ∨ addr < 256 → s'.mem.read addr = s.mem.read addr) →
      ∃ t', hostRun s' = .next t' ∧ t'.a = t.a ∧ t'.ccr = t.ccr ∧ t'.pc = t.pc ∧ t'.run = t.run

/-- Launch premises are enough, and can be met. A launch of a program that ends within its own bytes ends with one
A, PC, RUN and CCR[3:0], whatever X, CCR[7:4] and every byte of memory that is neither the program's nor stated for
the direct page are; A and CCR[3:0] count where the premises leave them unstated. And the host's operations make a
launch state of any premises that state each direct-page byte once and every one the program reads
(70_reset_and_hazards.md sections 2 and 6). Model's choice: launch states are the spec's decision D15 (log 13), no
wrap of PC its D3 (log 7), the length bound of Load its D12 (log 12), and which bytes a program reads is log 21. -/
def Obligations.LaunchPremisesDecideTheResult : Prop :=
  (∀ (p : LaunchPremises) (s s' : State), Launch p s → Launch p s' → endsWithin p.program = true →
    (p.a = none → s'.a = s.a) → (p.ccr = none → s'.ccr.extractLsb' 0 4 = s.ccr.extractLsb' 0 4) →
      ∃ t t', hostRun s = .next t ∧ hostRun s' = .next t' ∧ t'.a = t.a ∧ t'.pc = t.pc ∧ t'.run = t.run ∧
        t'.ccr.extractLsb' 0 4 = t.ccr.extractLsb' 0 4) ∧
  ∀ (p : LaunchPremises) (s₀ : State), loadable p.program = true → p.stateEveryRead = true →
    (p.directPage.map Prod.fst).Nodup →
      ∃ s, HostOp.performAll p.preparation s₀ = .next s ∧ Launch p s

/-- A run that ends normally ended on a HALT opcode, and PC is one past it (43_loop_halt.md section 3; the end of a
run is the spec's decision D6, log 1; that PC is not 0 then, its decision D3, log 7). -/
def Obligations.NormalEndIsOnePastAHalt : Prop :=
  ∀ s t : State, EndsNormally s t →
    t.pc.toNat ≠ 0 ∧ t.mem.read (t.pc.toNat - 1) ∈ Config.haltOpcodes

/-- Run after Reset after a normal end reaches the same end state again (70_reset_and_hazards.md section 6, marked
derived there; X kept by Reset is the spec's decision D9, log 10). -/
def Obligations.ResetAfterNormalEndRestoresLaunch : Prop :=
  ∀ s₀ s t : State, hostReset s₀ = .next s → EndsNormally s t →
    hostReset t = .next s ∧ ∀ u, hostReset t = .next u → EndsNormally u t

/-! ## Host operations, reset and the invariant (10_state.md section 8, 70_reset_and_hazards.md) -/

/-- Construction gives all zero and Idle, from any state at all, and a run started straight after it halts at once
with PC = 0x0001 (10_state.md section 8; RUN is the spec's decision D6, log 1). -/
def Obligations.ConstructZeroesAndRunHaltsAtOnce : Prop :=
  (∀ s : State, ∃ c, hostConstruct s = .next c ∧ c.a = 0x00#8 ∧ c.x = 0x0000#16 ∧ c.ccr = 0x00#8 ∧
    c.pc = 0x0000#16 ∧ c.run = .idle ∧ ∀ addr, c.mem.read addr = 0x00#8) ∧
  ∃ t, EndsNormally State.construct t ∧ t.a = 0x00#8 ∧ t.ccr = 0x00#8 ∧ t.pc = 0x0001#16

/-- Reset clears A and all of CCR, sets PC to 0xE000, keeps X, memory and RUN, and is idempotent; the host's reset
state is the constructed machine after it (10_state.md section 8). Model's choice: X kept is the spec's decision D9
(log 10), and which reset State.reset is (log 3). -/
def Obligations.ResetClearsAndIsIdempotent : Prop :=
  (∀ s : State, s.run = .idle → ∃ t, hostReset s = .next t ∧ t.a = 0x00#8 ∧ t.ccr = 0x00#8 ∧ t.pc = 0xE000#16 ∧
    t.x = s.x ∧ t.mem = s.mem ∧ t.run = .idle ∧ hostReset t = .next t) ∧
  hostReset State.construct = .next Sys2Proof.core.reset

/-- Load writes exactly the program's bytes from 0xE000 upward and sets PC; a longer sequence than 0x2000 is
refused (10_state.md section 8, 70_reset_and_hazards.md section 1; the length bound is the spec's decision D12,
log 12). -/
def Obligations.LoadWritesExactlyTheProgram : Prop :=
  ∀ (program : List Byte) (s : State), s.run = .idle → s.mem.wf = true →
    (program.length ≤ 0x2000 → ∃ t, hostLoad program s = .next t ∧
      (∀ k (h : k < program.length), t.mem.read (0xE000 + k) = program[k]) ∧
      (∀ addr, addr < 0xE000 ∨ 0xE000 + program.length ≤ addr → t.mem.read addr = s.mem.read addr) ∧
      t.pc = 0xE000#16 ∧ t.a = s.a ∧ t.x = s.x ∧ t.ccr = s.ccr ∧ t.run = .idle) ∧
    (0x2000 < program.length → hostLoad program s = .refused .loadTooLong)

/-- Loading twice is loading once, and Load and Reset may be done in either order: the same state, as data
(70_reset_and_hazards.md section 6, marked derived there). -/
def Obligations.LoadIsIdempotentAndCommutesWithReset : Prop :=
  ∀ (program : List Byte) (s t : State), s.mem.wf = true → hostLoad program s = .next t →
    hostLoad program t = .next t ∧
    ∃ u v w, hostReset t = .next u ∧ hostReset s = .next v ∧ hostLoad program v = .next w ∧ w = u

/-- Poke writes one cell and SetReg one register, of an idle machine, and nothing else (70_reset_and_hazards.md
section 1; SetReg on every register is the spec's decision D15, log 13). -/
def Obligations.PokeAndSetRegWriteOnePlace : Prop :=
  ∀ (s : State), s.run = .idle → s.mem.wf = true →
    (∀ (addr : Word) (b : Byte), ∃ t, hostPoke addr b s = .next t ∧ t.mem.read addr.toNat = b ∧
      (∀ addr', addr' ≠ addr.toNat → t.mem.read addr' = s.mem.read addr') ∧
      t.a = s.a ∧ t.x = s.x ∧ t.ccr = s.ccr ∧ t.pc = s.pc ∧ t.run = s.run) ∧
    (∀ v, hostSetReg (.a v) s = .next { s with a := v }) ∧
    (∀ v, hostSetReg (.x v) s = .next { s with x := v }) ∧
    (∀ v, hostSetReg (.ccr v) s = .next { s with ccr := v }) ∧
    (∀ v, hostSetReg (.pc v) s = .next { s with pc := v })

/-- While RUN is Running or Faulted the host has no move but Construct (which always works); observing is possible
exactly when RUN is not Running and shows each flag by its mask (70_reset_and_hazards.md section 1, 60_exceptions.md
section 5, 10_state.md section 4). Model's choice: a move the host lacks is refused (the spec's decisions D8 and D13,
log 11), and Observe while Running answers nothing (log 16). -/
def Obligations.HostActsOnlyWhenIdle : Prop :=
  ∀ (s : State),
    (s.run ≠ .idle → ∀ op : HostOp, op ≠ .construct → op.perform s = .refused .hostNotIdle) ∧
    HostOp.construct.perform s = .next State.construct ∧
    (∀ p : Probe, hostObserve p s = none ↔ s.run = .running) ∧
    (s.run ≠ .running → ∀ (f : Flag) (mask : Byte),
      (f, mask) ∈ [(Flag.c, 0x01#8), (.v, 0x02#8), (.z, 0x04#8), (.n, 0x08#8),
        (.i, 0x10#8), (.h, 0x20#8), (.x, 0x40#8), (.s, 0x80#8)] →
        hostObserve (.flag f) s = some (.bit (s.ccr &&& mask != 0x00#8)))

/-- The reset state satisfies the invariant. -/
def Obligations.ResetSatisfiesInvariant : Prop :=
  State.reset.inv = true

/-- Every Step keeps the invariant: memory stays canonical, and the latch records only a fault that can occur, with
PC and memory agreeing with it (20_memory.md section 2, 60_exceptions.md sections 1 and 4). Model's choice: the
latch is log 2, and PcOverflow is the spec's decision D3 (log 7). -/
def Obligations.StepKeepsInvariant : Prop :=
  ∀ s t : State, s.inv = true → step s = .next t → t.inv = true

/-- Every host operation, a whole run among them, keeps the invariant. -/
def Obligations.HostOperationsKeepInvariant : Prop :=
  ∀ (op : HostOp) (s t : State), s.inv = true → op.perform s = .next t → t.inv = true
end

