-- ==== Sys2Proof/Laws/Flags.lean ====
section
/-! SUPPORT. Reading a flag after a flag has been written. -/

namespace Sys2Proof.Machine

/-- A flag that was written reads what was written. -/
@[simp] theorem flagSet_writeFlag_same (f : Flag) (b : Bool) (ccr : Byte) : flagSet f (writeFlag f b ccr) = b := by
  cases f <;> cases b <;> revert ccr <;> decide

/-- Every other flag keeps its value. -/
theorem flagSet_writeFlag_other {f g : Flag} (h : f ≠ g) (b : Bool) (ccr : Byte) :
    flagSet f (writeFlag g b ccr) = flagSet f ccr := by
  revert h ccr
  cases f <;> cases g <;> cases b <;> decide

/-- The high half of CCR is out of reach of the four computed flags. -/
theorem writeFlag_high {f : Flag} (h : f = .c ∨ f = .v ∨ f = .z ∨ f = .n) (b : Bool) (ccr : Byte) :
    writeFlag f b ccr &&& 0xF0#8 = ccr &&& 0xF0#8 := by
  revert ccr
  rcases h with rfl | rfl | rfl | rfl <;> cases b <;> decide

end Sys2Proof.Machine
end

