-- ==== Sys2Proof/Laws/Memory.lean ====
section
/-! SUPPORT. The laws of memory: read after write, the canonical form and its extensionality. -/

namespace Sys2Proof.Machine

theorem Memory.read_cons (addr : Nat) (v : Byte) (rest : Memory) (h : Memory.read rest addr = Memory.unlisted) (b : Nat) :
    Memory.read (Memory.cons addr v rest) b = if addr = b then v else Memory.read rest b := by
  unfold Memory.cons
  split
  · rename_i hv
    split
    · subst hv; subst_vars; exact h
    · rfl
  · simp [Memory.read]

/-- Below the first address of a canonical list, every cell is unlisted. -/
theorem Memory.read_below {low : Nat} {m : Memory} (h : Memory.wfFrom low m) {b : Nat} (hb : b < low) :
    Memory.read m b = Memory.unlisted := by
  induction m generalizing low with
  | nil => rfl
  | cons c rest ih =>
    obtain ⟨k, w⟩ := c
    simp only [Memory.wfFrom, Bool.and_eq_true, decide_eq_true_eq] at h
    rw [Memory.read, if_neg (by omega)]
    exact ih h.2 (by omega)

theorem Memory.wfFrom_mono {low low' : Nat} {m : Memory} (h : Memory.wfFrom low m) (hl : low' ≤ low) :
    Memory.wfFrom low' m := by
  cases m with
  | nil => rfl
  | cons c rest =>
    simp only [Memory.wfFrom, Bool.and_eq_true, decide_eq_true_eq] at h ⊢
    exact ⟨⟨⟨by omega, h.1.1.2⟩, h.1.2⟩, h.2⟩

theorem Memory.wfFrom_cons {low addr : Nat} {v : Byte} {rest : Memory} (hl : low ≤ addr) (ha : addr < Config.memExtent)
    (h : Memory.wfFrom (addr + 1) rest) : Memory.wfFrom low (Memory.cons addr v rest) := by
  unfold Memory.cons
  split
  · exact Memory.wfFrom_mono h (by omega)
  · simp only [Memory.wfFrom, Bool.and_eq_true, decide_eq_true_eq]
    exact ⟨⟨⟨hl, ha⟩, by assumption⟩, h⟩

/-- A write keeps the canonical form. -/
theorem Memory.wfFrom_write {low : Nat} {m : Memory} (h : Memory.wfFrom low m) {addr : Nat} (hl : low ≤ addr)
    (ha : addr < Config.memExtent) (v : Byte) : Memory.wfFrom low (Memory.write m addr v) := by
  induction m generalizing low with
  | nil => exact Memory.wfFrom_cons hl ha rfl
  | cons c rest ih =>
    obtain ⟨k, w⟩ := c
    have h' := h
    simp only [Memory.wfFrom, Bool.and_eq_true, decide_eq_true_eq] at h'
    obtain ⟨⟨⟨h1, h2⟩, h3⟩, h4⟩ := h'
    unfold Memory.write
    split
    · refine Memory.wfFrom_cons hl ha ?_
      simp only [Memory.wfFrom, Bool.and_eq_true, decide_eq_true_eq]
      exact ⟨⟨⟨by omega, h2⟩, h3⟩, h4⟩
    · split
      · exact Memory.wfFrom_cons hl ha (Memory.wfFrom_mono h4 (by omega))
      · simp only [Memory.wfFrom, Bool.and_eq_true, decide_eq_true_eq]
        exact ⟨⟨⟨h1, h2⟩, h3⟩, ih h4 (by omega)⟩

/-- A write keeps `Memory.wf`. -/
theorem Memory.wf_write {m : Memory} (h : m.wf) {addr : Nat} (ha : addr < Config.memExtent) (v : Byte) :
    (m.write addr v).wf :=
  Memory.wfFrom_write h (Nat.zero_le _) ha v

theorem Memory.read_write_from {low : Nat} {m : Memory} (h : Memory.wfFrom low m) (addr : Nat) (v : Byte) (b : Nat) :
    Memory.read (Memory.write m addr v) b = if addr = b then v else Memory.read m b := by
  induction m generalizing low with
  | nil => exact Memory.read_cons addr v [] rfl b
  | cons c rest ih =>
    obtain ⟨k, w⟩ := c
    simp only [Memory.wfFrom, Bool.and_eq_true, decide_eq_true_eq] at h
    obtain ⟨⟨⟨h1, h2⟩, h3⟩, h4⟩ := h
    unfold Memory.write
    split
    · have hk : Memory.wfFrom k ((k, w) :: rest) := by
        simp only [Memory.wfFrom, Bool.and_eq_true, decide_eq_true_eq]; exact ⟨⟨⟨le_refl _, h2⟩, h3⟩, h4⟩
      exact Memory.read_cons addr v _ (Memory.read_below hk ‹_›) b
    · split
      · subst_vars
        rw [Memory.read_cons _ _ _ (Memory.read_below h4 (by omega))]
        simp only [Memory.read]
        split <;> rfl
      · simp only [Memory.read, ih h4]
        split
        · subst_vars; rw [if_neg ‹_›]
        · rfl

/-- A read after a write: the written byte at its address, every other address as before. -/
theorem Memory.read_write {m : Memory} (h : m.wf) (addr : Nat) (v : Byte) (b : Nat) :
    (m.write addr v).read b = if addr = b then v else m.read b :=
  Memory.read_write_from h addr v b

/-- Canonical memories that read the same everywhere are the same list. -/
theorem Memory.wfFrom_ext {low : Nat} {m m' : Memory} (h : Memory.wfFrom low m) (h' : Memory.wfFrom low m')
    (heq : ∀ b, Memory.read m b = Memory.read m' b) : m = m' := by
  induction m generalizing low m' with
  | nil =>
    cases m' with
    | nil => rfl
    | cons c rest =>
      simp only [Memory.wfFrom, Bool.and_eq_true, decide_eq_true_eq] at h'
      have := heq c.1
      simp only [Memory.read, if_true] at this
      exact absurd this.symm h'.1.2
  | cons c rest ih =>
    obtain ⟨k, w⟩ := c
    simp only [Memory.wfFrom, Bool.and_eq_true, decide_eq_true_eq] at h
    cases m' with
    | nil =>
      have := heq k
      simp only [Memory.read, if_true] at this
      exact absurd this h.1.2
    | cons c' rest' =>
      obtain ⟨k', w'⟩ := c'
      simp only [Memory.wfFrom, Bool.and_eq_true, decide_eq_true_eq] at h'
      have hk : k = k' := by
        rcases Nat.lt_trichotomy k k' with hlt | he | hgt
        · have := heq k
          simp only [Memory.read, if_true, if_neg (show ¬ k' = k by omega)] at this
          exact absurd (this.trans (Memory.read_below h'.2 (by omega))) h.1.2
        · exact he
        · have := heq k'
          simp only [Memory.read, if_true, if_neg (show ¬ k = k' by omega)] at this
          exact absurd (this.symm.trans (Memory.read_below h.2 (by omega))) h'.1.2
      subst hk
      have hw : w = w' := by simpa [Memory.read] using heq k
      subst hw
      have : rest = rest' := by
        refine ih h.2 h'.2 fun b => ?_
        by_cases hb : k = b
        · subst hb
          rw [Memory.read_below h.2 (by omega), Memory.read_below h'.2 (by omega)]
        · simpa [Memory.read, hb] using heq b
      rw [this]

/-- Equal memories are equal data. -/
theorem Memory.wf_ext {m m' : Memory} (h : m.wf) (h' : m'.wf) (heq : ∀ b, m.read b = m'.read b) : m = m' :=
  Memory.wfFrom_ext h h' heq

end Sys2Proof.Machine
end

