-- ==== Sys2Proof/Laws/Ops.lean ====
section
/-! SUPPORT. What each shared operation can do, once: later proofs cite these and unfold nothing. -/

namespace Sys2Proof.Machine

/-- Every 16-bit address is inside the memory (20_memory.md R26). -/
theorem addr_lt_memExtent (addr : Word) : addr.toNat < Config.memExtent := addr.isLt

/-- A byte read never faults at MEM_EXTENT = 65536. -/
@[simp] theorem memRead_eq (m : Memory) (addr : Word) : memRead m addr = .ok (m.read addr.toNat) := by
  rw [memRead, if_neg (Nat.not_le.mpr (addr_lt_memExtent addr))]

/-- A byte write never faults at MEM_EXTENT = 65536. -/
@[simp] theorem memWrite_eq (m : Memory) (addr : Word) (v : Byte) : memWrite m addr v = .ok (m.write addr.toNat v) := by
  rw [memWrite, if_neg (Nat.not_le.mpr (addr_lt_memExtent addr))]

theorem memWrite_wf {m m' : Memory} (h : m.wf) {addr : Word} {v : Byte} (hw : memWrite m addr v = .ok m') : m'.wf := by
  rw [memWrite_eq] at hw
  cases hw
  exact Memory.wf_write h (addr_lt_memExtent addr) v

theorem inc16_top : inc16 0xFFFF#16 = .error (.pcOverflow 0xFFFF#16) := rfl

theorem inc16_of_ne {w : Word} (h : w ≠ 0xFFFF#16) : inc16 w = .ok (w + 1#16) := by
  rw [inc16, if_neg h]

/-- All that `Inc16` can do. -/
theorem inc16_cases (w : Word) :
    (w = 0xFFFF#16 ∧ inc16 w = .error (.pcOverflow 0xFFFF#16)) ∨ (w ≠ 0xFFFF#16 ∧ inc16 w = .ok (w + 1#16)) := by
  by_cases h : w = 0xFFFF#16
  · subst h; exact .inl ⟨rfl, inc16_top⟩
  · exact .inr ⟨h, inc16_of_ne h⟩

/-- All that the operand advance can do. -/
theorem operandAdvance_cases (s : State) :
    (s.pc = 0xFFFF#16 ∧ operandAdvance s = .next (s.setRun (.faulted (.pcOverflow 0xFFFF#16)))) ∨
    (s.pc ≠ 0xFFFF#16 ∧ operandAdvance s = .next (s.setPc (s.pc + 1#16))) := by
  unfold operandAdvance
  rcases inc16_cases s.pc with ⟨h, e⟩ | ⟨h, e⟩ <;> rw [e]
  · exact .inl ⟨h, rfl⟩
  · exact .inr ⟨h, rfl⟩

@[simp] theorem loadA_a (v : Byte) (s : State) : (loadA v s).a = v := rfl
@[simp] theorem loadA_x (v : Byte) (s : State) : (loadA v s).x = s.x := rfl
@[simp] theorem loadA_ccr (v : Byte) (s : State) : (loadA v s).ccr = loadFlags v s.ccr := rfl
@[simp] theorem loadA_pc (v : Byte) (s : State) : (loadA v s).pc = s.pc := rfl
@[simp] theorem loadA_mem (v : Byte) (s : State) : (loadA v s).mem = s.mem := rfl
@[simp] theorem loadA_run (v : Byte) (s : State) : (loadA v s).run = s.run := rfl
@[simp] theorem addA_a (m : Byte) (s : State) : (addA m s).a = s.a + m := rfl
@[simp] theorem addA_x (m : Byte) (s : State) : (addA m s).x = s.x := rfl
@[simp] theorem addA_ccr (m : Byte) (s : State) : (addA m s).ccr = addFlags s.a m s.ccr := rfl
@[simp] theorem addA_pc (m : Byte) (s : State) : (addA m s).pc = s.pc := rfl
@[simp] theorem addA_mem (m : Byte) (s : State) : (addA m s).mem = s.mem := rfl
@[simp] theorem addA_run (m : Byte) (s : State) : (addA m s).run = s.run := rfl

/-- What an executor's commit is, for the instructions that have one. -/
def executorOf (i : Instr) (s : State) : Option State :=
  match i with
  | .halt => none
  | .halt3E => none
  | .ldaImm ii => some (loadA ii s)
  | .ldaDir dd => some (loadA (s.mem.read (directAddress dd).toNat) s)
  | .addImm ii => some (addA ii s)
  | .addDir dd => some (addA (s.mem.read (directAddress dd).toNat) s)

/-- All that an instruction can do, by its executor: HALT ends the run; the others commit and advance PC. -/
theorem exec_cases (i : Instr) (s : State) :
    (executorOf i s = none ∧ exec i s = .next (s.setRun .idle)) ∨
    ∃ s', executorOf i s = some s' ∧ exec i s = operandAdvance s' := by
  cases i
  · exact .inl ⟨rfl, rfl⟩
  · exact .inl ⟨rfl, rfl⟩
  · exact .inr ⟨_, rfl, rfl⟩
  · exact .inr ⟨_, rfl, by simp [exec, execLdaDir]⟩
  · exact .inr ⟨_, rfl, rfl⟩
  · exact .inr ⟨_, rfl, by simp [exec, execAddDir]⟩

/-- What every executor's commit leaves alone. -/
theorem executorOf_frame {i : Instr} {s s' : State} (h : executorOf i s = some s') :
    s'.x = s.x ∧ s'.pc = s.pc ∧ s'.mem = s.mem ∧ s'.run = s.run := by
  cases i <;> simp only [executorOf, Option.some.injEq, reduceCtorEq] at h <;> subst h <;> simp

/-- All that decode and execute can do on the state after Fetch. -/
theorem decodeAndExec_cases (opcode : Byte) (s : State) :
    (classifyOpcode opcode = .illegal ∧ decodeAndExec opcode s = .next (s.setRun (.faulted (.unknownOpcode opcode)))) ∨
    (∃ i, classifyOpcode opcode = .inherent i ∧ decodeAndExec opcode s = exec i s) ∨
    ∃ o, classifyOpcode opcode = .oneOperand o ∧
      decodeAndExec opcode s = exec (o.withOperand (s.mem.read s.pc.toNat)) s := by
  unfold decodeAndExec
  cases h : classifyOpcode opcode with
  | illegal => exact .inl ⟨rfl, rfl⟩
  | inherent i => exact .inr (.inl ⟨i, rfl, rfl⟩)
  | oneOperand o => exact .inr (.inr ⟨o, rfl, by simp⟩)

/-- All that a Step of a running machine can do. -/
theorem runningStep_cases (s : State) :
    (s.pc = 0xFFFF#16 ∧ runningStep s = .next (s.setRun (.faulted (.pcOverflow 0xFFFF#16)))) ∨
    (s.pc ≠ 0xFFFF#16 ∧ runningStep s = decodeAndExec (s.mem.read s.pc.toNat) (s.setPc (s.pc + 1#16))) := by
  unfold runningStep
  rw [memRead_eq]
  rcases inc16_cases s.pc with ⟨h, e⟩ | ⟨h, e⟩ <;> simp only [e]
  · exact .inl ⟨h, rfl⟩
  · exact .inr ⟨h, trivial⟩

theorem step_idle {s : State} (h : s.run = .idle) : step s = .refused .notRunning := by rw [step, h]
theorem step_faulted {s : State} {kind : Fault} (h : s.run = .faulted kind) : step s = .fault kind := by rw [step, h]
theorem step_running {s : State} (h : s.run = .running) : step s = runningStep s := by rw [step, h]

/-- A step that answers a next state was a Step of a running machine. -/
theorem step_next {s t : State} (h : step s = .next t) : s.run = .running ∧ runningStep s = .next t := by
  cases hr : s.run with
  | idle => rw [step_idle hr] at h; cases h
  | faulted k => rw [step_faulted hr] at h; cases h
  | running => exact ⟨rfl, (step_running hr).symm.trans h⟩

/-- A run that is over takes no more Steps. -/
theorem runLoop_stopped {s : State} (h : s.run ≠ .running) (k : Nat) : runLoop k s = s := by
  cases k with
  | zero => rfl
  | succ k =>
    rw [runLoop]
    cases hr : s.run with
    | idle => rw [step_idle hr]
    | faulted kind => rw [step_faulted hr]
    | running => exact absurd hr h

/-- A run goes on from the state its next Step answers. -/
theorem runLoop_step {s t : State} (h : step s = .next t) (k : Nat) : runLoop (k + 1) s = runLoop k t := by
  rw [runLoop, h]

/-- A host operation that needs RUN = Idle and answers a next state found it so. -/
theorem whenIdle_next {s t : State} {op : Host.Outcome State Fault Refusal} (h : whenIdle s op = .next t) :
    s.run = .idle ∧ op = .next t := by
  unfold whenIdle at h
  split at h
  · exact ⟨‹_›, h⟩
  · cases h
  · cases h

/-- Load's writes keep the canonical form of memory. -/
theorem loadBytes_wf {program : List Byte} {addr : Word} {m m' : Memory} (h : m.wf)
    (hl : loadBytes program addr m = .ok m') : m'.wf := by
  induction program generalizing addr m with
  | nil => cases hl; exact h
  | cons b rest ih =>
    simp only [loadBytes, memWrite_eq] at hl
    exact ih (Memory.wf_write h (addr_lt_memExtent addr) b) hl

/-- Placing an instruction's bytes keeps the canonical form of memory. -/
theorem placeBytes_wf {bytes : List Byte} {addr : Nat} {m : Memory} (h : m.wf) : (placeBytes bytes addr m).wf := by
  induction bytes generalizing addr m with
  | nil => exact h
  | cons b rest ih =>
    unfold placeBytes
    split
    · exact ih (Memory.wf_write h ‹_› b)
    · exact h

end Sys2Proof.Machine
end

