-- ==== Sys2Proof/Laws/Launch.lean ====
section
/-! SUPPORT. What the host's sequences and launch states can do, once. -/

namespace Sys2Proof.Machine

@[simp] theorem performAll_nil (s : State) : HostOp.performAll [] s = .next s := rfl

theorem performAll_cons {op : HostOp} {s s' : State} (h : op.perform s = .next s') (rest : List HostOp) :
    HostOp.performAll (op :: rest) s = HostOp.performAll rest s' := by
  rw [HostOp.performAll, h]

/-- Two sequences in a row, when the first answers a next state. -/
theorem performAll_append {first : List HostOp} {s s' : State} (h : HostOp.performAll first s = .next s')
    (second : List HostOp) : HostOp.performAll (first ++ second) s = HostOp.performAll second s' := by
  induction first generalizing s with
  | nil => cases h; rfl
  | cons op rest ih =>
    rw [HostOp.performAll] at h
    split at h
    · rename_i u hu
      rw [List.cons_append, performAll_cons hu]; exact ih h
    · cases h
    · cases h

/-- The bytes of an instruction with an operand name its own offset and those of the bytes after it. -/
theorem directOffsets_oneOperand {opcode : Byte} {o : OperandOpcode} (h : classifyOpcode opcode = .oneOperand o)
    (operand : Byte) (rest : List Byte) :
    directOffsets (opcode :: operand :: rest) =
      (directOffset (o.withOperand operand)).toList ++ directOffsets rest := by
  simp only [directOffsets, h]

/-- A program that begins with an operand-taking opcode and ends within its bytes has the operand, and the bytes
after it end within themselves. -/
theorem endsWithin_oneOperand {opcode : Byte} {o : OperandOpcode} (h : classifyOpcode opcode = .oneOperand o)
    {rest : List Byte} (he : endsWithin (opcode :: rest) = true) :
    ∃ operand rest', rest = operand :: rest' ∧ endsWithin rest' = true := by
  cases rest with
  | nil => simp [endsWithin, h] at he
  | cons operand rest' => exact ⟨operand, rest', rfl, by simpa [endsWithin, h] using he⟩

/-- Reset keeps a launch state one, with A and CCR at the values R129 names. -/
theorem launch_reset {p : LaunchPremises} {s t : State} (h : Launch p s) (hr : hostReset s = .next t) :
    Launch { p with a := some 0x00#8, ccr := some 0x00#8 } t := by
  obtain ⟨hi, hr⟩ := whenIdle_next hr
  cases hr
  exact ⟨hi, h.loaded, rfl, h.everyReadStated, h.directPage, fun v hv => by cases hv; rfl, fun v hv => by cases hv; rfl⟩

end Sys2Proof.Machine
end

