-- ==== Sys2Proof/Laws/PerInstr.lean ====
section
/-! SUPPORT. Statements for all instructions, one lemma per constructor. -/

namespace Sys2Proof.Laws.Encoding

/-- The instruction is well-formed, its encoding begins with an opcode of the table, and it is as long as
byte 0 says (30_encoding.md R42, R53). -/
def Statement (i : Instr) : Prop :=
  i.wellFormed = true ∧
    ∃ opcode rest, encode i = opcode :: rest ∧ instrLength opcode = some (encode i).length ∧
      ∃ row ∈ opcodeTable, row.opcode = opcode ∧ row.operandBytes = rest.length

theorem halt : Statement .halt := ⟨rfl, _, _, rfl, rfl, ⟨0x00#8, .halt, 0⟩, by decide, rfl, rfl⟩
theorem halt3E : Statement .halt3E := ⟨rfl, _, _, rfl, rfl, ⟨0x3E#8, .halt, 0⟩, by decide, rfl, rfl⟩
theorem ldaImm (ii : Byte) : Statement (.ldaImm ii) :=
  ⟨rfl, _, _, rfl, rfl, ⟨0x86#8, .lda .immediate, 1⟩, by decide, rfl, rfl⟩
theorem ldaDir (dd : Byte) : Statement (.ldaDir dd) :=
  ⟨rfl, _, _, rfl, rfl, ⟨0x96#8, .lda .direct, 1⟩, by decide, rfl, rfl⟩
theorem addImm (ii : Byte) : Statement (.addImm ii) :=
  ⟨rfl, _, _, rfl, rfl, ⟨0x8B#8, .add .immediate, 1⟩, by decide, rfl, rfl⟩
theorem addDir (dd : Byte) : Statement (.addDir dd) :=
  ⟨rfl, _, _, rfl, rfl, ⟨0x9B#8, .add .direct, 1⟩, by decide, rfl, rfl⟩

end Sys2Proof.Laws.Encoding
end

