-- ==== Sys2Proof/Tests/Slice0.lean ====
section
/-! SUPPORT. Tests, with the source of each expected result, and witnesses that the obligations' hypotheses can be
met. Vectors T and S are those of 95_test_vectors.md. -/

namespace Sys2Proof.Tests

open Sys2Proof.Machine

/-! ## WellFormed: an ill-formed term for each check -/

/-- 40_addressing_resolver.md R61: LDA wired to None is a mis-wired definition. -/
theorem test_wellFormed_refuses_none_mode : (OpcodeRow.mk 0xA6#8 (.lda .none) 0).wellFormed = false := by decide
/-- R62: no opcode may select IndexedX or Relative. -/
theorem test_wellFormed_refuses_unassigned_modes :
    (OpcodeRow.mk 0xAB#8 (.add .indexedX) 2).wellFormed = false ∧
    (OpcodeRow.mk 0x20#8 (.add .relative) 1).wellFormed = false := by decide
/-- 30_encoding.md R42: the count is the mode's. -/
theorem test_wellFormed_refuses_wrong_count :
    (OpcodeRow.mk 0x86#8 (.lda .immediate) 2).wellFormed = false ∧ (OpcodeRow.mk 0x00#8 .halt 1).wellFormed = false := by
  decide
/-- T75: a program of 0x2001 bytes is not loadable, one of 0x2000 is (T76). -/
theorem test_loadable_refuses_long_program :
    loadable (List.replicate 0x2001 0x86#8) = false ∧ loadable (List.replicate 0x2000 0x86#8) = true := by
  simp only [loadable, List.length_replicate]
  decide
theorem test_table_rows_are_wellFormed : ∀ row ∈ opcodeTable, row.wellFormed = true := by decide
/-- 30_encoding.md R50: no two rows match the same byte. -/
theorem test_table_rows_do_not_overlap : opcodeTable.Pairwise (fun r r' => r.opcode ≠ r'.opcode) := by decide

/-! ## Decoding: words written out bit by bit from 30_encoding.md R43 to R45, R49 -/

theorem test_decode_halt : decode [0b00000000#8] = .ok (.halt, []) := rfl
theorem test_decode_halt3E : decode [0b00111110#8] = .ok (.halt3E, []) := rfl
theorem test_decode_ldaImm : decode [0b10000110#8, 0b11111110#8] = .ok (.ldaImm 0xFE#8, []) := rfl
theorem test_decode_ldaDir : decode [0b10010110#8, 0b00100000#8] = .ok (.ldaDir 0x20#8, []) := rfl
theorem test_decode_addImm : decode [0b10001011#8, 0b11110101#8] = .ok (.addImm 0xF5#8, []) := rfl
theorem test_decode_addDir : decode [0b10011011#8, 0b00010000#8] = .ok (.addDir 0x10#8, []) := rfl
/-- T50 to T54, T57: neighbours and look-alikes are illegal. -/
theorem test_decode_rejects_by_name :
    ∀ b ∈ [0x01#8, 0xA6#8, 0xFF#8, 0x3D#8, 0x3F#8, 0x18#8, 0x85#8, 0x87#8, 0x8A#8, 0x8C#8, 0x95#8, 0x97#8, 0x9A#8, 0x9C#8],
      classifyOpcode b = .illegal := by decide
theorem test_decode_rejects_short_bytes :
    decode [] = .error .noBytes ∧ decode [0x86#8] = .error (.truncated 0x86#8) := ⟨rfl, rfl⟩
/-- R54: the spellings of the rule's table. -/
theorem test_assembly :
    assembly (.ldaImm 0xFE#8) = ['L', 'D', 'A', ' ', '#', '$', 'F', 'E'] ∧
    assembly (.addDir 0x10#8) = ['A', 'D', 'D', ' ', '$', '1', '0'] := by decide

/-! ## One Step each -/

/-- A running machine with X = 0x1234. -/
def machine (a ccr : Byte) (pc : Word) (mem : Memory) : State :=
  { a := a, x := 0x1234#16, ccr := ccr, pc := pc, mem := mem, run := .running }

/-- What a Step answers, as data: A, CCR, PC, RUN. -/
def seen (o : Host.Outcome State Fault Refusal) : Option (Byte × Byte × Word × RunState) :=
  match o with
  | .next s => some (s.a, s.ccr, s.pc, s.run)
  | .fault _ => none
  | .refused _ => none

/-- T5. -/
theorem test_ldaImm_keeps_c_and_inert :
    seen (step (machine 0x00#8 0xF3#8 0xE000#16 [(0xE000, 0x86#8), (0xE001, 0x01#8)])) =
      some (0x01#8, 0xF1#8, 0xE002#16, .running) := by decide
/-- T61: the commit stands when the operand advance faults. -/
theorem test_ldaImm_at_top_faults_after_commit :
    seen (step (machine 0x00#8 0x00#8 0xFFFE#16 [(0xFFFE, 0x86#8), (0xFFFF, 0x55#8)])) =
      some (0x55#8, 0x00#8, 0xFFFF#16, .faulted (.pcOverflow 0xFFFF#16)) := by decide
/-- T6. -/
theorem test_ldaDir_low_end :
    seen (step (machine 0x11#8 0x01#8 0xE000#16 [(0x0000, 0x80#8), (0xE000, 0x96#8)])) =
      some (0x80#8, 0x09#8, 0xE002#16, .running) := by decide
/-- T9: the instruction reads its own operand byte. -/
theorem test_ldaDir_reads_itself :
    seen (step (machine 0x00#8 0x00#8 0x0004#16 [(0x0004, 0x96#8), (0x0005, 0x05#8)])) =
      some (0x05#8, 0x00#8, 0x0006#16, .running) := by decide
/-- T31. -/
theorem test_addImm_wraps_and_keeps_inert :
    seen (step (machine 0xFF#8 0xFA#8 0xE000#16 [(0xE000, 0x8B#8), (0xE001, 0x01#8)])) =
      some (0x00#8, 0xF5#8, 0xE002#16, .running) := by decide
/-- T36: the operand byte is not taken for an opcode. -/
theorem test_addImm_operand_equal_to_opcode :
    seen (step (machine 0x8B#8 0x00#8 0xE000#16 [(0xE000, 0x8B#8), (0xE001, 0x8B#8)])) =
      some (0x16#8, 0x03#8, 0xE002#16, .running) := by decide
/-- T34. -/
theorem test_addDir_carry_overflow_zero :
    seen (step (machine 0x80#8 0x00#8 0xE000#16 [(0x0020, 0x80#8), (0xE000, 0x9B#8), (0xE001, 0x20#8)])) =
      some (0x00#8, 0x07#8, 0xE002#16, .running) := by decide
/-- T35: a cell never written adds zero, and stale flags go. -/
theorem test_addDir_unwritten_cell :
    seen (step (machine 0x42#8 0x03#8 0xE000#16 [(0xE000, 0x9B#8), (0xE001, 0x30#8)])) =
      some (0x42#8, 0x00#8, 0xE002#16, .running) := by decide
/-- T55. -/
theorem test_halt_ends_run : seen (step (machine 0x12#8 0x05#8 0xE000#16 [])) =
    some (0x12#8, 0x05#8, 0xE001#16, .idle) := by decide
/-- T63: the last address at which a HALT halts. -/
theorem test_halt3E_below_top : seen (step (machine 0x12#8 0x05#8 0xFFFE#16 [(0xFFFE, 0x3E#8)])) =
    some (0x12#8, 0x05#8, 0xFFFF#16, .idle) := by decide
/-- T60: a HALT at the top faults and does not halt. -/
theorem test_halt3E_at_top_faults : seen (step (machine 0x12#8 0x05#8 0xFFFF#16 [(0xFFFF, 0x3E#8)])) =
    some (0x12#8, 0x05#8, 0xFFFF#16, .faulted (.pcOverflow 0xFFFF#16)) := by decide
/-- T51. -/
theorem test_unknown_opcode_faults : seen (step (machine 0x12#8 0x05#8 0xE000#16 [(0xE000, 0xA6#8)])) =
    some (0x12#8, 0x05#8, 0xE001#16, .faulted (.unknownOpcode 0xA6#8)) := by decide
/-- T62: PcOverflow comes before UnknownOpcode. -/
theorem test_overflow_before_unknown : seen (step (machine 0x12#8 0x05#8 0xFFFF#16 [(0xFFFF, 0x01#8)])) =
    some (0x12#8, 0x05#8, 0xFFFF#16, .faulted (.pcOverflow 0xFFFF#16)) := by decide
/-- 70_reset_and_hazards.md R119: from reset the host's move is Run; withFetchWord stands for Load and Run. -/
theorem test_fetch_word_runs_first :
    step State.reset = .refused .notRunning ∧
    seen (step (State.reset.withFetchWord 16 0xFE86)) = some (0xFE#8, 0x08#8, 0xE002#16, .running) := ⟨rfl, by decide⟩

/-! ## The resolver's unassigned modes and the flag generator -/

/-- T42, with another X: zero-extension. -/
theorem test_resolve_relative : (resolve .relative (machine 0#8 0#8 0xE001#16 [(0xE001, 0xFF#8)])).toOption.map Prod.fst =
    some 0xE100#16 := by decide
/-- T48 with X = 0x1234: the offset ends at the top of memory, and PC advances to it. -/
theorem test_resolve_indexed :
    (resolve .indexedX (machine 0#8 0#8 0xFFFE#16 [(0xFFFF, 0x10#8)])).toOption.map (fun r => (r.1, r.2.pc)) =
      some (0x1244#16, 0xFFFF#16) := by decide
/-- T13, T14, T18: CCR's low nibble after an addition. -/
theorem test_add_flags :
    addFlags 0x80#8 0x80#8 0x00#8 = 0x07#8 ∧ addFlags 0x80#8 0x7F#8 0x00#8 = 0x08#8 ∧
    addFlags 0x80#8 0xFF#8 0x00#8 = 0x03#8 := by decide

/-! ## Host operations -/

/-- T72: A, all of CCR and PC are reset, X and memory kept. -/
theorem test_reset_keeps_x :
    hostReset { machine 0xF3#8 0xF9#8 0xE005#16 [(0xE000, 0x86#8)] with run := .idle } =
      .next { a := 0#8, x := 0x1234#16, ccr := 0#8, pc := 0xE000#16, mem := [(0xE000, 0x86#8)], run := .idle } := rfl
/-- T74: Load does not clear old bytes; a zero byte of the program leaves the list. -/
theorem test_load_keeps_old_bytes :
    hostLoad [0x96#8, 0x00#8] { machine 0xF3#8 0x09#8 0xE005#16 [(0xE000, 0x86#8), (0xE001, 0xFE#8), (0xE004, 0x3E#8)] with run := .idle } =
      .next { machine 0xF3#8 0x09#8 0xE000#16 [(0xE000, 0x96#8), (0xE004, 0x3E#8)] with run := .idle } := rfl

/-! ## Witnesses: states that meet the obligations' hypotheses -/

/-- LDA #$01 at 0xE000, then HALT.3E. -/
def loadThenHalt : State := machine 0x55#8 0xF3#8 0xE000#16 [(0xE000, 0x86#8), (0xE001, 0x01#8), (0xE002, 0x3E#8)]

/-- The same machine before the host's Run. -/
def launchable : State := loadThenHalt.setRun .idle

/-- DecodeInvertsEncode (both sides), AssemblySpellingIsInjective. -/
theorem witness_decode_and_spelling :
    decode [0x86#8, 0xFE#8, 0x3E#8] = .ok (.ldaImm 0xFE#8, [0x3E#8]) ∧
    [0x86#8, 0xFE#8, 0x3E#8] = encode (.ldaImm 0xFE#8) ++ [0x3E#8] ∧ assembly .halt = assembly .halt := ⟨rfl, rfl, rfl⟩
/-- DecodeTableHasExactlySixRows, ResolverNoneFailsAndIsUnreachable: a byte with a row. -/
theorem witness_lookup : lookupOpcode 0x9B#8 = some ⟨0x9B#8, .add .direct, 1⟩ := by decide
/-- OverflowIsBitSevenIdentity: addends of opposite sign; UpdateZNAssignsZeroAndNegative: another flag. -/
theorem witness_flags : (0x80#8 : Byte).getLsbD 7 ≠ (0x7F#8 : Byte).getLsbD 7 ∧ Flag.c ≠ .z ∧ Flag.c ≠ .n := by decide
/-- CarryAndOverflowMeanRangeOverflow at the boundaries of both ranges. -/
theorem witness_range :
    256 ≤ (0xFF#8 : Byte).toNat + (0x01#8 : Byte).toNat ∧ 127 < (0x7F#8 : Byte).toInt + (0x01#8 : Byte).toInt ∧
    (0x80#8 : Byte).toInt + (0xFF#8 : Byte).toInt < -128 := by decide
/-- MemoryReadsBackWrites: a canonical memory and two addresses at its ends. -/
theorem witness_memory : loadThenHalt.mem.wf = true ∧ (0x0000#16 : Word) ≠ 0xFFFF#16 := by decide
/-- WordReadIsBigEndian, ResolverIndexedAdvancesOnce and the exec statements: PC just below the top, and at it. -/
theorem witness_top :
    (machine 0#8 0#8 0xFFFE#16 []).pc ≠ 0xFFFF#16 ∧ (machine 0#8 0#8 0xFFFF#16 []).pc = 0xFFFF#16 := by decide
/-- LoadExecutorCommitsByteAndFlags, AddExecutorCommitsSumAndFlags, LoadForcesVClearAndKeepsC: every mode that
resolves does so somewhere, two raise, and an executor answers. -/
theorem witness_resolve :
    (∀ mode ∈ [Mode.immediate, .direct, .relative, .indexedX], (resolve mode loadThenHalt).toOption.isSome = true) ∧
    resolve .none loadThenHalt = .error .invalidAddressingMode ∧
    resolve .indexedX (machine 0#8 0#8 0xFFFF#16 []) = .error (.addressWrap 0xFFFF#16) ∧
    (ldaMode .direct loadThenHalt).toOption.isSome = true := by
  refine ⟨by decide, rfl, rfl, by decide⟩
/-- InstructionFrame, LoadForcesVClearAndKeepsC: every instruction answers a next state, also where PC cannot
advance. -/
theorem witness_exec_next :
    ∀ i ∈ [Instr.halt, .halt3E, .ldaImm 0x01#8, .ldaDir 0x02#8, .addImm 0x03#8, .addDir 0x04#8],
      (seen (exec i loadThenHalt)).isSome = true ∧ (seen (exec i (machine 0#8 0#8 0xFFFF#16 []))).isSome = true := by
  decide
/-- StepRunsTheDecodedInstruction, StepIsTheSpecSequencer, StepDependsOnlyOnBytesItReads (with a memory that differs
where the Step does not read), StepIgnoresIndexRegister, StepReadsNoFlag, PcNeverDecreases,
StepPreservesMemoryIndexAndInertFlags, StepKeepsInvariant, FetchWordRunsTheInstruction. -/
theorem witness_running_step :
    loadThenHalt.run = .running ∧ loadThenHalt.pc ≠ 0xFFFF#16 ∧
    decode [loadThenHalt.mem.read loadThenHalt.pc.toNat, loadThenHalt.mem.read (loadThenHalt.pc.toNat + 1)] =
      .ok (.ldaImm 0x01#8, []) ∧
    (∃ t, step loadThenHalt = .next t) ∧ loadThenHalt.inv = true ∧ loadThenHalt.mem.wf = true ∧
    (∀ addr ∈ stepReads loadThenHalt,
      Memory.read [(0x0007, 0x99#8), (0xE000, 0x86#8), (0xE001, 0x01#8)] addr.toNat = loadThenHalt.mem.read addr.toNat) := by
  refine ⟨rfl, by decide, rfl, ⟨_, rfl⟩, by decide, by decide, fun addr h => ?_⟩
  rw [show stepReads loadThenHalt = [0xE000#16, 0xE001#16] from rfl] at h
  simp only [List.mem_cons, List.not_mem_nil, or_false] at h
  rcases h with rfl | rfl <;> rfl
/-- StepIsTakenExactlyWhileRunning, HostActsOnlyWhenIdle: each value of RUN is held by a state. -/
theorem witness_run_values :
    launchable.run = .idle ∧ loadThenHalt.run = .running ∧
    (loadThenHalt.setRun (.faulted .invalidAddressingMode)).run = .faulted .invalidAddressingMode ∧
    HostOp.run ≠ .construct ∧ (Flag.s, (0x80#8 : Byte)) ∈ [(Flag.s, (0x80#8 : Byte))] := by decide
/-- StepAdvancesPcByInstructionLength, StepExecutesLoadsAndAddsFromMemory: each opcode at the last address at which it
completes. -/
theorem witness_step_opcodes :
    (∀ op ∈ [0x86#8, 0x96#8, 0x8B#8, 0x9B#8], ∃ s : State, s.run = .running ∧ s.pc.toNat + 2 = 0xFFFF ∧
      s.mem.read s.pc.toNat = op ∧ s.mem.read (s.pc.toNat + 1) = 0x00#8) ∧
    (∀ op ∈ [0x00#8, 0x3E#8], ∃ s : State, s.run = .running ∧ s.pc.toNat + 1 = 0xFFFF ∧ s.mem.read s.pc.toNat = op) :=
  ⟨fun op _ => ⟨machine 0#8 0#8 0xFFFD#16 [(0xFFFD, op)], rfl, rfl, rfl, rfl⟩,
   fun op _ => ⟨machine 0#8 0#8 0xFFFE#16 [(0xFFFE, op)], rfl, rfl, rfl⟩⟩
/-- FetchAtTopOfMemoryFaults, OperandAdvanceFaultKeepsCommit (each opcode at 0xFFFE), IllegalOpcodeFaultsByName. -/
theorem witness_faulting_steps :
    ((machine 0#8 0#8 0xFFFF#16 []).run = .running ∧ (machine 0#8 0#8 0xFFFF#16 []).pc = 0xFFFF#16) ∧
    (∀ op ∈ [0x86#8, 0x96#8, 0x8B#8, 0x9B#8], ∃ s : State, s.run = .running ∧ s.pc = 0xFFFE#16 ∧
      s.mem.read 0xFFFE = op ∧ s.mem.read 0xFFFF = 0x55#8) ∧
    ∃ s : State, s.run = .running ∧ s.pc ≠ 0xFFFF#16 ∧ s.mem.read s.pc.toNat = 0x01#8 ∧
      (0x01#8 : Byte) ∉ [0x00#8, 0x3E#8, 0x86#8, 0x8B#8, 0x96#8, 0x9B#8] :=
  ⟨⟨rfl, rfl⟩, fun op _ => ⟨machine 0#8 0#8 0xFFFE#16 [(0xFFFE, op), (0xFFFF, 0x55#8)], rfl, rfl, rfl, rfl⟩,
   machine 0#8 0#8 0xFFFE#16 [(0xFFFE, 0x01#8)], rfl, by decide, rfl, by decide⟩
/-- OnlyTwoFaultKindsOccur, StepHaltsExactlyOnHaltOpcodes: a Step that faults each way, and one that halts. -/
theorem witness_outcomes :
    (∃ t, step (machine 0#8 0#8 0xFFFF#16 []) = .next t ∧ t.run = .faulted (.pcOverflow 0xFFFF#16)) ∧
    (∃ t, step (machine 0#8 0#8 0x0000#16 [(0, 0x01#8)]) = .next t ∧ t.run = .faulted (.unknownOpcode 0x01#8)) ∧
    ∃ t, step (machine 0#8 0#8 0x0000#16 []) = .next t ∧ t.run = .idle :=
  ⟨⟨_, rfl, rfl⟩, ⟨_, rfl, rfl⟩, ⟨_, rfl, rfl⟩⟩
/-- UnassignedModesRunAsSpecified: both clauses' bounds, at their last address. -/
theorem witness_unassigned_modes :
    (machine 0#8 0#8 0xFFFD#16 []).pc.toNat + 2 ≤ 0xFFFF ∧ (machine 0#8 0#8 0xFFFE#16 []).pc ≠ 0xFFFF#16 := by decide
/-- EveryRunEndsWithinBound, RunPreservesMemoryAndMovesPcUp (both start PCs), RunDependsOnlyOnCodeAndDirectPage (with
another X): runs the host may start. -/
theorem witness_run_starts :
    (∃ t, hostRun launchable = .next t) ∧ launchable.pc ≠ 0xFFFF#16 ∧
    (∃ t, hostRun ((launchable.setPc 0xFFFF#16)) = .next t) ∧
    (launchable.setX 0x0000#16).run = .idle ∧ (launchable.setX 0x0000#16).a = launchable.a ∧
    (launchable.setX 0x0000#16).mem = launchable.mem :=
  ⟨⟨_, rfl⟩, by decide, ⟨_, rfl⟩, rfl, rfl, rfl⟩
/-- A run from reset over never-written memory ends normally at once (R88, T77). -/
theorem witness_normal_end : ∃ t, EndsNormally State.reset t ∧ t.pc = 0xE001#16 := by
  have h : step (State.reset.setRun .running) = .next ((State.reset.setPc 0xE001#16).setRun .idle) := rfl
  refine ⟨(State.reset.setPc 0xE001#16).setRun .idle, ⟨?_, rfl⟩, rfl⟩
  show Host.Outcome.next (runLoop 32768 (State.reset.setRun .running)) = _
  rw [runLoop_step h, runLoop_stopped (by simp)]
/-- ResetAfterNormalEndRestoresLaunch, NormalEndIsOnePastAHalt. -/
theorem witness_reset_then_run : ∃ s t, hostReset State.construct = .next s ∧ EndsNormally s t := by
  obtain ⟨t, h, _⟩ := witness_normal_end
  exact ⟨State.reset, t, rfl, h⟩
/-- LoadWritesExactlyTheProgram (the longest program and one byte more), LoadIsIdempotentAndCommutesWithReset,
PokeAndSetRegWriteOnePlace, ResetClearsAndIsIdempotent, HostOperationsKeepInvariant. -/
theorem witness_host_ops :
    launchable.run = .idle ∧ launchable.mem.wf = true ∧ launchable.inv = true ∧
    (List.replicate 0x2000 0x86#8).length ≤ 0x2000 ∧ 0x2000 < (List.replicate 0x2001 0x86#8).length ∧
    (∃ t, hostLoad [0x86#8, 0x01#8, 0x00#8] launchable = .next t) ∧
    ∃ t, (HostOp.poke 0xFFFF#16 0x01#8).perform launchable = .next t := by
  refine ⟨rfl, by decide, by decide, ?_, ?_, ⟨_, rfl⟩, ⟨_, rfl⟩⟩ <;> rw [List.length_replicate] <;> decide
/-- LDA $10 ; ADD $FF ; HALT, its operands poked as 0x7F and 0x01, CCR stated. -/
def directSum : LaunchPremises :=
  { program := [0x96#8, 0x10#8, 0x9B#8, 0xFF#8, 0x00#8], directPage := [(0x10#8, 0x7F#8), (0xFF#8, 0x01#8)],
    a := none, ccr := some 0x00#8 }
/-- A launch state of it. -/
def directLaunch : State :=
  { machine 0x55#8 0x00#8 0xE000#16 [(0x10, 0x7F#8), (0xFF, 0x01#8), (0xE000, 0x96#8), (0xE001, 0x10#8), (0xE002, 0x9B#8), (0xE003, 0xFF#8)]
    with run := .idle }
theorem directSum_cells {m : Memory} (h : m.read 0x10 = 0x7F#8) (h' : m.read 0xFF = 0x01#8) :
    ∀ cell ∈ directSum.directPage, m.read (directAddress cell.1).toNat = cell.2 := by
  intro cell hc
  simp only [directSum, List.mem_cons, List.not_mem_nil, or_false] at hc
  rcases hc with rfl | rfl
  · exact h
  · exact h'
/-- R129: the direct-page bytes a program reads; an immediate operand is none, and no byte after a HALT is code. -/
theorem test_direct_offsets :
    directOffsets directSum.program = [0x10#8, 0xFF#8] ∧
    directOffsets [0x86#8, 0x10#8, 0x3E#8, 0x96#8, 0x20#8] = [] ∧
    endsWithin directSum.program = true ∧ endsWithin [0x96#8, 0x00#8] = false := by decide
/-- R129: premises that leave a direct-page byte the program reads unstated describe no launch. -/
theorem test_unstated_read_is_no_launch :
    ¬ Launch { directSum with directPage := [(0x10#8, 0x7F#8)] } directLaunch :=
  fun h => absurd h.everyReadStated (by decide)
/-- R129: another value in a stated direct-page byte, or another CCR, is no launch of these premises. -/
theorem test_other_values_are_no_launch :
    ¬ Launch directSum (directLaunch.setMem (directLaunch.mem.write 0xFF 0x02#8)) ∧
    ¬ Launch directSum (directLaunch.setCcr 0x01#8) :=
  ⟨fun h => absurd (h.directPage (0xFF#8, 0x01#8) (by decide)) (by decide), fun h => absurd (h.ccr 0x00#8 rfl) (by decide)⟩
/-- LaunchPremisesDecideTheResult, both clauses: launches that differ in X and in a byte the program does not read,
with A left unstated and CCR stated, and with CCR unstated and differing in CCR[7:4]. -/
theorem witness_launch :
    Launch directSum directLaunch ∧
    Launch directSum ((directLaunch.setX 0x0000#16).setMem (directLaunch.mem.write 0x20 0x99#8)) ∧
    (directSum.a = none ∧ directLaunch.a = (directLaunch.setX 0x0000#16).a) ∧
    Launch { directSum with ccr := none } (directLaunch.setCcr 0xF0#8) ∧
    (0xF0#8 : Byte).extractLsb' 0 4 = (0x00#8 : Byte).extractLsb' 0 4 ∧
    endsWithin directSum.program = true ∧ loadable directSum.program = true ∧ directSum.stateEveryRead = true ∧
    (directSum.directPage.map Prod.fst).Nodup :=
  ⟨⟨rfl, by decide, rfl, by decide, directSum_cells rfl rfl, nofun, fun _ h => by cases h; rfl⟩,
   ⟨rfl, by decide, rfl, by decide, directSum_cells rfl rfl, nofun, fun _ h => by cases h; rfl⟩,
   ⟨rfl, rfl⟩, ⟨rfl, by decide, rfl, by decide, directSum_cells rfl rfl, nofun, nofun⟩,
   by decide, by decide, by decide, by decide, by decide⟩
/-- Safety: an abnormal end. -/
theorem witness_abnormal_end : ∃ t, EndsAbnormally (.pcOverflow 0xFFFF#16) (launchable.setPc 0xFFFF#16) t := by
  have h : step ((launchable.setPc 0xFFFF#16).setRun .running) =
    .next (((launchable.setPc 0xFFFF#16).setRun .running).setRun (.faulted (.pcOverflow 0xFFFF#16))) := rfl
  refine ⟨((launchable.setPc 0xFFFF#16).setRun .running).setRun (.faulted (.pcOverflow 0xFFFF#16)), ?_, rfl⟩
  show Host.Outcome.next (runLoop 32768 ((launchable.setPc 0xFFFF#16).setRun .running)) = _
  rw [runLoop_step h, runLoop_stopped (by simp)]

end Sys2Proof.Tests
end

/-! ## The decoder and the decode table (30_encoding.md) -/

namespace Sys2Proof

/-- No two rows share a byte, so each row is the one that its own byte finds (R49, R50). -/
theorem lookupOpcode_of_mem : ∀ row ∈ opcodeTable, lookupOpcode row.opcode = some row := by decide

/-- The lookup answers exactly the rows of the table, each at its own byte. -/
theorem lookupOpcode_eq_some_iff {b : Byte} {row : OpcodeRow} :
    lookupOpcode b = some row ↔ row.opcode = b ∧ row ∈ opcodeTable := by
  constructor
  · intro h
    have hbyte : (row.opcode == b) = true := List.find?_some (p := fun r : OpcodeRow => r.opcode == b) h
    exact ⟨beq_iff_eq.mp hbyte, List.mem_of_find?_eq_some h⟩
  · rintro ⟨rfl, hmem⟩
    exact lookupOpcode_of_mem row hmem

/-- The lookup answers nothing exactly at the bytes of no row. -/
theorem lookupOpcode_eq_none_iff {b : Byte} :
    lookupOpcode b = none ↔ ∀ row ∈ opcodeTable, row.opcode ≠ b := by
  simp [lookupOpcode]

/-- A byte of no row is illegal (R51). -/
theorem classifyOpcode_eq_illegal_of_lookupOpcode {b : Byte} (h : lookupOpcode b = none) :
    classifyOpcode b = .illegal := by
  have hne := lookupOpcode_eq_none_iff.mp h
  simp only [opcodeTable, List.forall_mem_cons, ne_comm (b := b)] at hne
  obtain ⟨h00, h3E, h86, h8B, h96, h9B, -⟩ := hne
  rw [classifyOpcode, if_neg h00, if_neg h3E, if_neg h86, if_neg h8B, if_neg h96, if_neg h9B]

/-- At a row's byte the length is one more than the row's operand bytes (R42, R53). -/
theorem instrLength_of_mem :
    ∀ row ∈ opcodeTable, instrLength row.opcode = some (1 + row.operandBytes) := by decide

/-- The length read from byte 0 is the table's (R42, R53). -/
theorem instrLength_eq_map_lookupOpcode (b : Byte) :
    instrLength b = (lookupOpcode b).map (fun row => 1 + row.operandBytes) := by
  cases h : lookupOpcode b with
  | none => rw [instrLength, classifyOpcode_eq_illegal_of_lookupOpcode h, Option.map_none]
  | some row =>
    obtain ⟨rfl, hmem⟩ := lookupOpcode_eq_some_iff.mp h
    exact instrLength_of_mem row hmem

/-- An inherent opcode is the whole instruction (R43). -/
theorem decode_of_inherent {opcode : Byte} {i : Instr} (h : classifyOpcode opcode = .inherent i)
    (rest : List Byte) : decode (opcode :: rest) = .ok (i, rest) := by
  simp only [decode, h]

/-- An opcode with one operand takes the next byte, whatever it is (R44, R45). -/
theorem decode_of_oneOperand {opcode : Byte} {o : OperandOpcode} (h : classifyOpcode opcode = .oneOperand o)
    (operand : Byte) (rest : List Byte) :
    decode (opcode :: operand :: rest) = .ok (o.withOperand operand, rest) := by
  simp only [decode, h]

/-- A direct address is its operand byte, with a high half of 0 (R45). -/
@[simp] theorem Machine.directAddress_toNat (dd : Byte) : (Machine.directAddress dd).toNat = dd.toNat :=
  BitVec.toNat_setWidth_of_le (by decide)

/-- Settles O4: a lookup finds the rows that are members of the table, and membership in the literal table is
the list of its six rows. -/
theorem decodeTableHasExactlySixRows : Obligations.DecodeTableHasExactlySixRows := by
  unfold Obligations.DecodeTableHasExactlySixRows
  refine ⟨rfl, fun b row => ?_, instrLength_eq_map_lookupOpcode⟩
  rw [lookupOpcode_eq_some_iff]
  simp only [opcodeTable, List.mem_cons, List.not_mem_nil, or_false]

/-- Settles O2: each opcode's class, and what the decoder makes of a byte of that class. -/
theorem formatsDecodeEveryOperand : Obligations.FormatsDecodeEveryOperand := by
  unfold Obligations.FormatsDecodeEveryOperand
  intro operand rest
  exact ⟨decode_of_inherent rfl rest, decode_of_inherent rfl rest,
    decode_of_oneOperand (o := .ldaImm) rfl operand rest, decode_of_oneOperand (o := .addImm) rfl operand rest,
    decode_of_oneOperand (o := .ldaDir) rfl operand rest, decode_of_oneOperand (o := .addDir) rfl operand rest,
    Machine.directAddress_toNat operand⟩

end Sys2Proof

/-! ## The addressing-mode resolver (40_addressing_resolver.md) -/

namespace Sys2Proof.Machine

/-- Immediate mode: the operand is the byte at PC itself (R57). -/
@[simp] theorem resolve_immediate (s : State) : resolve .immediate s = .ok (s.pc, s) := rfl

/-- Direct mode: the byte at PC is the offset in the direct page (R58); the read of it never faults. -/
@[simp] theorem resolve_direct (s : State) :
    resolve .direct s = .ok (directAddress (s.mem.read s.pc.toNat), s) := by
  rw [resolve, memRead_eq]

/-- A direct address lies in the direct page (R58). -/
theorem directAddress_toNat_lt (dd : Byte) : (directAddress dd).toNat < 256 := by
  rw [directAddress_toNat]
  exact dd.isLt

/-- Settles O16: each mode's equation, and that a direct address is its byte and lies in the direct page. -/
theorem resolverImmediateAndDirect : Obligations.ResolverImmediateAndDirect := by
  unfold Obligations.ResolverImmediateAndDirect
  intro s
  exact ⟨resolve_immediate s, _, resolve_direct s, directAddress_toNat _, directAddress_toNat_lt _⟩

end Sys2Proof.Machine

/-! ## The flag generator (41_flag_unit.md) -/

namespace Sys2Proof.Machine

/-- CCR[7:4] is out of reach of the four computed flags (R70). -/
theorem writeFlag_extractLsb'_high {f : Flag} (h : f = .c ∨ f = .v ∨ f = .z ∨ f = .n) (b : Bool) (ccr : Byte) :
    (writeFlag f b ccr).extractLsb' 4 4 = ccr.extractLsb' 4 4 := by
  have high_of_masked (w : Byte) : w.extractLsb' 4 4 = (w &&& 0xF0#8).extractLsb' 4 4 := by
    rw [BitVec.extractLsb'_and, show (0xF0#8).extractLsb' 4 4 = BitVec.allOnes 4 from rfl, BitVec.and_allOnes]
  rw [high_of_masked, writeFlag_high h, ← high_of_masked]

/-- Z after UpdateZN (R64): N is written after it and is another bit. -/
@[simp] theorem flagSet_z_updateZN (v ccr : Byte) : flagSet .z (updateZN v ccr) = (v == 0x00#8) := by
  rw [updateZN, flagSet_writeFlag_other (by decide), flagSet_writeFlag_same]

/-- N after UpdateZN (R64). -/
@[simp] theorem flagSet_n_updateZN (v ccr : Byte) : flagSet .n (updateZN v ccr) = v.getLsbD 7 := by
  rw [updateZN, flagSet_writeFlag_same]

/-- UpdateZN writes no flag but Z and N (R64). -/
theorem flagSet_updateZN_other {f : Flag} (hz : f ≠ .z) (hn : f ≠ .n) (v ccr : Byte) :
    flagSet f (updateZN v ccr) = flagSet f ccr := by
  rw [updateZN, flagSet_writeFlag_other hn, flagSet_writeFlag_other hz]

@[simp] theorem updateZN_extractLsb'_high (v ccr : Byte) :
    (updateZN v ccr).extractLsb' 4 4 = ccr.extractLsb' 4 4 := by
  rw [updateZN, writeFlag_extractLsb'_high (by decide), writeFlag_extractLsb'_high (by decide)]

/-- V after a load (R68). -/
@[simp] theorem flagSet_v_loadFlags (v ccr : Byte) : flagSet .v (loadFlags v ccr) = false := by
  rw [loadFlags, flagSet_writeFlag_same]

/-- A load does not write C (R68). -/
@[simp] theorem flagSet_c_loadFlags (v ccr : Byte) : flagSet .c (loadFlags v ccr) = flagSet .c ccr := by
  rw [loadFlags, flagSet_writeFlag_other (by decide), flagSet_updateZN_other (by decide) (by decide)]

@[simp] theorem loadFlags_extractLsb'_high (v ccr : Byte) :
    (loadFlags v ccr).extractLsb' 4 4 = ccr.extractLsb' 4 4 := by
  rw [loadFlags, writeFlag_extractLsb'_high (by decide), updateZN_extractLsb'_high]

/-- C after an addition (R67): the flags written after it are other bits. -/
@[simp] theorem flagSet_c_addFlags (a m ccr : Byte) : flagSet .c (addFlags a m ccr) = carryOf a m (a + m) := by
  rw [addFlags, flagSet_updateZN_other (by decide) (by decide), flagSet_writeFlag_other (by decide),
    flagSet_writeFlag_same]

/-- V after an addition (R67). -/
@[simp] theorem flagSet_v_addFlags (a m ccr : Byte) : flagSet .v (addFlags a m ccr) = overflowOf a m (a + m) := by
  rw [addFlags, flagSet_updateZN_other (by decide) (by decide), flagSet_writeFlag_same]

@[simp] theorem addFlags_extractLsb'_high (a m ccr : Byte) :
    (addFlags a m ccr).extractLsb' 4 4 = ccr.extractLsb' 4 4 := by
  rw [addFlags, updateZN_extractLsb'_high, writeFlag_extractLsb'_high (by decide),
    writeFlag_extractLsb'_high (by decide)]

/-- The test by the mask 0x80 is the test of bit 7. -/
theorem and_0x80_ne_zero (w : Byte) : (w &&& 0x80#8 != 0x00#8) = w.getLsbD 7 := by
  rw [show 0x80#8 = BitVec.twoPow 8 7 from rfl, BitVec.and_twoPow]
  cases w.getLsbD 7 <;> rfl

/-- The carry on single bits (R65). -/
theorem carryOf_eq_bits (a m r : Byte) :
    carryOf a m r =
      ((a.getLsbD 7 && m.getLsbD 7) || (m.getLsbD 7 && !r.getLsbD 7) || (!r.getLsbD 7 && a.getLsbD 7)) := by
  rw [carryOf, and_0x80_ne_zero]
  simp

/-- The overflow on single bits (R66). -/
theorem overflowOf_eq_bits (a m r : Byte) :
    overflowOf a m r =
      ((m.getLsbD 7 && a.getLsbD 7 && !r.getLsbD 7) || (!m.getLsbD 7 && !a.getLsbD 7 && r.getLsbD 7)) := by
  rw [overflowOf, and_0x80_ne_zero]
  simp

/-- An operand of 0 never carries (R65): the result is the accumulator, so no term of the identity holds. -/
theorem carryOf_zero (a : Byte) : carryOf a 0x00#8 (a + 0x00#8) = false := by
  rw [BitVec.add_zero, carryOf_eq_bits]
  simp

/-- Operands of opposite sign never overflow (R66), whatever the third byte. -/
theorem overflowOf_of_opposite_signs {a m : Byte} (h : a.getLsbD 7 ≠ m.getLsbD 7) (r : Byte) :
    overflowOf a m r = false := by
  rw [overflowOf_eq_bits, Bool.eq_not.mpr h]
  simp

/-- Settles O7: both flags are assigned, and the byte 0, which sets Z, has bit 7 clear. -/
theorem updateZNAssignsZeroAndNegative : Obligations.UpdateZNAssignsZeroAndNegative := by
  unfold Obligations.UpdateZNAssignsZeroAndNegative
  intro v ccr
  refine ⟨flagSet_z_updateZN v ccr, flagSet_n_updateZN v ccr,
    fun f hz hn => flagSet_updateZN_other hz hn v ccr, ?_⟩
  rw [flagSet_z_updateZN, flagSet_n_updateZN]
  rintro ⟨hzero, hneg⟩
  rw [beq_iff_eq.mp hzero] at hneg
  exact absurd hneg (by decide)

/-- Settles O8: the masked form is the definition, the mask tests bit 7, and no flag
written after C is C. -/
theorem carryIsBitSevenIdentity : Obligations.CarryIsBitSevenIdentity := by
  unfold Obligations.CarryIsBitSevenIdentity
  intro a m ccr
  exact ⟨rfl, carryOf_eq_bits a m (a + m), carryOf_zero a, flagSet_c_addFlags a m ccr⟩

/-- Settles O9: the masked form is the definition, the mask tests bit 7, and no flag
written after V is V. -/
theorem overflowIsBitSevenIdentity : Obligations.OverflowIsBitSevenIdentity := by
  unfold Obligations.OverflowIsBitSevenIdentity
  intro a m ccr
  exact ⟨rfl, overflowOf_eq_bits a m (a + m), fun h => overflowOf_of_opposite_signs h (a + m),
    flagSet_v_addFlags a m ccr⟩

/-- Settles O11: each of the three is a chain of writes to C, V, Z or N. -/
theorem flagGeneratorNeverWritesInertBits : Obligations.FlagGeneratorNeverWritesInertBits := by
  unfold Obligations.FlagGeneratorNeverWritesInertBits
  intro a m v ccr
  exact ⟨updateZN_extractLsb'_high v ccr, loadFlags_extractLsb'_high v ccr, addFlags_extractLsb'_high a m ccr⟩

end Sys2Proof.Machine

/-! ## The load's flags, in both forms and every mode (42_lda_add.md) -/

namespace Sys2Proof.Machine

/-- The operand advance writes no flag, whether PC can advance or not. -/
theorem operandAdvance_ccr {s t : State} (h : operandAdvance s = .next t) : t.ccr = s.ccr := by
  rcases operandAdvance_cases s with ⟨-, e⟩ | ⟨-, e⟩ <;> rw [e] at h <;> cases h
  · exact State.setRun_ccr s _
  · exact State.setPc_ccr s _

/-- The resolver's one side effect is the extra advance of PC in IndexedX mode (R56). -/
theorem resolve_ok_state {mode : Mode} {s s' : State} {ea : Word} (h : resolve mode s = .ok (ea, s')) :
    s' = s ∨ (mode = .indexedX ∧ s' = s.setPc (s.pc + 1#16)) := by
  cases mode with
  | immediate => cases h; exact .inl rfl
  | direct => rw [resolve_direct] at h; cases h; exact .inl rfl
  | relative => rw [resolve, memRead_eq] at h; cases h; exact .inl rfl
  | indexedX =>
    unfold resolve at h
    cases hw : memReadWord s.mem s.pc with
    | error kind => rw [hw] at h; cases h
    | ok off =>
      rw [hw] at h
      rcases inc16_cases s.pc with ⟨-, e⟩ | ⟨-, e⟩ <;> rw [e] at h <;> cases h
      exact .inr ⟨rfl, rfl⟩
  | none => cases h

/-- No mode's resolution writes a flag. -/
theorem resolve_ok_ccr {mode : Mode} {s s' : State} {ea : Word} (h : resolve mode s = .ok (ea, s')) :
    s'.ccr = s.ccr := by
  rcases resolve_ok_state h with rfl | ⟨-, rfl⟩
  · rfl
  · exact State.setPc_ccr s _

/-- A mode that resolves gives the executor the byte at EA (R63). -/
theorem operandOf_of_resolve_ok {mode : Mode} {s s' : State} {ea : Word} (h : resolve mode s = .ok (ea, s')) :
    operandOf mode s = .ok (s'.mem.read ea.toNat, s') := by
  simp only [operandOf, h, memRead_eq]

/-- A fault of the resolver is the operand's, in the state the executor began with. -/
theorem operandOf_of_resolve_error {mode : Mode} {s : State} {kind : Fault} (h : resolve mode s = .error kind) :
    operandOf mode s = .error (kind, s) := by
  simp only [operandOf, h]

/-- Where the load executor answers, it has resolved its mode and committed the byte at EA (R74). -/
theorem ldaMode_ok {mode : Mode} {s t : State} (h : ldaMode mode s = .ok t) :
    ∃ ea s', resolve mode s = .ok (ea, s') ∧ t = loadA (s'.mem.read ea.toNat) s' := by
  unfold ldaMode at h
  cases hr : resolve mode s with
  | error kind => rw [operandOf_of_resolve_error hr] at h; cases h
  | ok resolved =>
    obtain ⟨ea, s'⟩ := resolved
    rw [operandOf_of_resolve_ok hr] at h
    cases h
    exact ⟨ea, s', rfl, rfl⟩

/-- The commit of either form of LDA is the load of some byte. -/
theorem executorOf_load {i : Instr} {operand : Byte} (h : i = .ldaImm operand ∨ i = .ldaDir operand) (s : State) :
    ∃ v, executorOf i s = some (loadA v s) := by
  rcases h with rfl | rfl <;> exact ⟨_, rfl⟩

/-- Either form of LDA leaves the flags of a load, also where the operand advance faults. -/
theorem exec_load_ccr {i : Instr} {operand : Byte} (hi : i = .ldaImm operand ∨ i = .ldaDir operand) {s t : State}
    (h : exec i s = .next t) : ∃ v, t.ccr = loadFlags v s.ccr := by
  obtain ⟨v, hv⟩ := executorOf_load hi s
  rcases exec_cases i s with ⟨hnone, -⟩ | ⟨s', hsome, hexec⟩
  · exact absurd (hv.symm.trans hnone) (Option.some_ne_none _)
  · obtain rfl : loadA v s = s' := Option.some.inj (hv.symm.trans hsome)
    exact ⟨v, operandAdvance_ccr (hexec.symm.trans h)⟩

/-- The load executor leaves the flags of a load, in every mode. -/
theorem ldaMode_ccr {mode : Mode} {s t : State} (h : ldaMode mode s = .ok t) : ∃ v, t.ccr = loadFlags v s.ccr := by
  obtain ⟨ea, s', hr, rfl⟩ := ldaMode_ok h
  exact ⟨s'.mem.read ea.toNat, by rw [loadA_ccr, resolve_ok_ccr hr]⟩

/-- What the flags of a load say of V and C (R68). -/
theorem flagSet_v_c_of_loadFlags {ccr ccr' : Byte} (h : ∃ v, ccr' = loadFlags v ccr) :
    flagSet .v ccr' = false ∧ flagSet .c ccr' = flagSet .c ccr := by
  obtain ⟨v, rfl⟩ := h
  exact ⟨flagSet_v_loadFlags v ccr, flagSet_c_loadFlags v ccr⟩

/-- Settles O27: both forms and every mode leave the flags of a load, and a load clears V and keeps C. -/
theorem loadForcesVClearAndKeepsC : Obligations.LoadForcesVClearAndKeepsC := by
  unfold Obligations.LoadForcesVClearAndKeepsC
  refine ⟨fun operand s t h => flagSet_v_c_of_loadFlags ?_, fun mode s t h => flagSet_v_c_of_loadFlags (ldaMode_ccr h)⟩
  rcases h with h | h
  · exact exec_load_ccr (.inl rfl) h
  · exact exec_load_ccr (.inr rfl) h

end Sys2Proof.Machine

/-! ## The executors' whole effect, in every mode (42_lda_add.md) -/

namespace Sys2Proof.Machine

/-- Z after a load: V is written after it and is another bit. -/
@[simp] theorem flagSet_z_loadFlags (v ccr : Byte) : flagSet .z (loadFlags v ccr) = (v == 0x00#8) := by
  rw [loadFlags, flagSet_writeFlag_other (by decide), flagSet_z_updateZN]

/-- N after a load. -/
@[simp] theorem flagSet_n_loadFlags (v ccr : Byte) : flagSet .n (loadFlags v ccr) = v.getLsbD 7 := by
  rw [loadFlags, flagSet_writeFlag_other (by decide), flagSet_n_updateZN]

/-- Z after an addition, from the sum (R67). -/
@[simp] theorem flagSet_z_addFlags (a m ccr : Byte) : flagSet .z (addFlags a m ccr) = (a + m == 0x00#8) := by
  rw [addFlags, flagSet_z_updateZN]

/-- N after an addition, from the sum (R67). -/
@[simp] theorem flagSet_n_addFlags (a m ccr : Byte) : flagSet .n (addFlags a m ccr) = (a + m).getLsbD 7 := by
  rw [addFlags, flagSet_n_updateZN]

/-- The inert flags are none of the four that the flag generator computes (R70). -/
theorem ne_computed_of_inert {f : Flag} (h : f = .i ∨ f = .h ∨ f = .x ∨ f = .s) :
    f ≠ .c ∧ f ≠ .v ∧ f ≠ .z ∧ f ≠ .n := by
  rcases h with rfl | rfl | rfl | rfl <;> decide

/-- A load writes no inert flag (R70). -/
theorem flagSet_loadFlags_inert {f : Flag} (h : f = .i ∨ f = .h ∨ f = .x ∨ f = .s) (v ccr : Byte) :
    flagSet f (loadFlags v ccr) = flagSet f ccr := by
  obtain ⟨-, hv, hz, hn⟩ := ne_computed_of_inert h
  rw [loadFlags, flagSet_writeFlag_other hv, flagSet_updateZN_other hz hn]

/-- An addition writes no inert flag (R70). -/
theorem flagSet_addFlags_inert {f : Flag} (h : f = .i ∨ f = .h ∨ f = .x ∨ f = .s) (a m ccr : Byte) :
    flagSet f (addFlags a m ccr) = flagSet f ccr := by
  obtain ⟨hc, hv, hz, hn⟩ := ne_computed_of_inert h
  rw [addFlags, flagSet_updateZN_other hz hn, flagSet_writeFlag_other hv, flagSet_writeFlag_other hc]

/-- The load's commit has the whole effect of a load (R74). -/
theorem loadEffect_loadA (v : Byte) (s : State) : LoadEffect v s (loadA v s) where
  acc := loadA_a v s
  z := flagSet_z_loadFlags v s.ccr
  n := flagSet_n_loadFlags v s.ccr
  v := flagSet_v_loadFlags v s.ccr
  c := flagSet_c_loadFlags v s.ccr
  inert := fun _ h => flagSet_loadFlags_inert h v s.ccr
  index := loadA_x v s
  cells := fun _ => rfl

/-- The addition's commit has the whole effect of an addition, its flags taken from the accumulator before the add
(R67, R75). -/
theorem addEffect_addA (m : Byte) (s : State) : AddEffect m s (addA m s) where
  acc := addA_a m s
  c := flagSet_c_addFlags s.a m s.ccr
  v := flagSet_v_addFlags s.a m s.ccr
  z := flagSet_z_addFlags s.a m s.ccr
  n := flagSet_n_addFlags s.a m s.ccr
  inert := fun _ h => flagSet_addFlags_inert h s.a m s.ccr
  index := addA_x m s
  cells := fun _ => rfl

/-- The effect of a load says nothing of PC, so a move of PC keeps it. -/
theorem LoadEffect.setPc {v : Byte} {s t : State} (h : LoadEffect v s t) (pc : Word) : LoadEffect v s (t.setPc pc) :=
  { h with }

/-- The effect of an addition says nothing of PC, so a move of PC keeps it. -/
theorem AddEffect.setPc {m : Byte} {s t : State} (h : AddEffect m s t) (pc : Word) : AddEffect m s (t.setPc pc) :=
  { h with }

/-- A load commits the same whether PC moves before or after it. -/
theorem loadA_setPc (v : Byte) (s : State) (pc : Word) : loadA v (s.setPc pc) = (loadA v s).setPc pc := rfl

/-- An addition commits the same whether PC moves before or after it. -/
theorem addA_setPc (m : Byte) (s : State) (pc : Word) : addA m (s.setPc pc) = (addA m s).setPc pc := rfl

/-- A mode that resolves moves at most PC, and PC only in IndexedX mode (R56). -/
theorem resolve_ok_setPc {mode : Mode} {s s' : State} {ea : Word} (h : resolve mode s = .ok (ea, s')) :
    ∃ pc, s' = s.setPc pc ∧ (mode ≠ .indexedX → pc = s.pc) := by
  rcases resolve_ok_state h with rfl | ⟨hmode, rfl⟩
  · exact ⟨s'.pc, rfl, fun _ => rfl⟩
  · exact ⟨s.pc + 1#16, rfl, fun hne => absurd hmode hne⟩

/-- The load executor commits the byte at EA in the state the resolver left (R74). -/
theorem ldaMode_of_resolve_ok {mode : Mode} {s s' : State} {ea : Word} (h : resolve mode s = .ok (ea, s')) :
    ldaMode mode s = .ok (loadA (s'.mem.read ea.toNat) s') := by
  rw [ldaMode, operandOf_of_resolve_ok h]

/-- The add executor commits the byte at EA in the state the resolver left (R75). -/
theorem addMode_of_resolve_ok {mode : Mode} {s s' : State} {ea : Word} (h : resolve mode s = .ok (ea, s')) :
    addMode mode s = .ok (addA (s'.mem.read ea.toNat) s') := by
  rw [addMode, operandOf_of_resolve_ok h]

/-- A fault of the resolver is the load executor's, with nothing written. -/
theorem ldaMode_of_resolve_error {mode : Mode} {s : State} {kind : Fault} (h : resolve mode s = .error kind) :
    ldaMode mode s = .error (kind, s) := by
  rw [ldaMode, operandOf_of_resolve_error h]

/-- A fault of the resolver is the add executor's, with nothing written. -/
theorem addMode_of_resolve_error {mode : Mode} {s : State} {kind : Fault} (h : resolve mode s = .error kind) :
    addMode mode s = .error (kind, s) := by
  rw [addMode, operandOf_of_resolve_error h]

/-- Settles O20: the resolver moves at most PC, the commit is a load of the byte at EA, and that effect does not
depend on where PC is. -/
theorem loadExecutorCommitsByteAndFlags : Obligations.LoadExecutorCommitsByteAndFlags := by
  unfold Obligations.LoadExecutorCommitsByteAndFlags
  refine fun mode s => ⟨fun ea s' h => ?_, fun kind h => ldaMode_of_resolve_error h⟩
  obtain ⟨pc, rfl, hpc⟩ := resolve_ok_setPc h
  refine ⟨(loadA (s.mem.read ea.toNat) s).setPc pc, ?_, (loadEffect_loadA _ s).setPc pc, rfl, rfl, hpc⟩
  rw [ldaMode_of_resolve_ok h, loadA_setPc, State.setPc_mem]

/-- Settles O21: the resolver moves at most PC, the commit is an addition of the byte at EA, and that effect does
not depend on where PC is. -/
theorem addExecutorCommitsSumAndFlags : Obligations.AddExecutorCommitsSumAndFlags := by
  unfold Obligations.AddExecutorCommitsSumAndFlags
  refine fun mode s => ⟨fun ea s' h => ?_, fun kind h => addMode_of_resolve_error h⟩
  obtain ⟨pc, rfl, hpc⟩ := resolve_ok_setPc h
  refine ⟨(addA (s.mem.read ea.toNat) s).setPc pc, ?_, (addEffect_addA _ s).setPc pc, rfl, rfl, hpc⟩
  rw [addMode_of_resolve_ok h, addA_setPc, State.setPc_mem]

end Sys2Proof.Machine

/-! ## Opcode classes, and decoding as the inverse of encoding (30_encoding.md) -/

namespace Sys2Proof

/-- The byte of each opcode with an operand (R49). -/
def OperandOpcode.opcode : OperandOpcode → Byte
  | .ldaImm => 0x86#8
  | .ldaDir => 0x96#8
  | .addImm => 0x8B#8
  | .addDir => 0x9B#8

/-- The operation and mode that the table gives each opcode with an operand (R49). -/
def OperandOpcode.operation : OperandOpcode → Operation
  | .ldaImm => .lda .immediate
  | .ldaDir => .lda .direct
  | .addImm => .add .immediate
  | .addDir => .add .direct

/-- All that byte 0 can be, with the rows of the table: a HALT, an opcode with an operand, or a byte of no row. -/
theorem classifyOpcode_cases (b : Byte) :
    (b = 0x00#8 ∧ classifyOpcode b = .inherent .halt) ∨
    (b = 0x3E#8 ∧ classifyOpcode b = .inherent .halt3E) ∨
    (∃ o : OperandOpcode, b = o.opcode ∧ classifyOpcode b = .oneOperand o) ∨
    (lookupOpcode b = none ∧ classifyOpcode b = .illegal) := by
  cases h : lookupOpcode b with
  | none => exact .inr (.inr (.inr ⟨rfl, classifyOpcode_eq_illegal_of_lookupOpcode h⟩))
  | some row =>
    obtain ⟨rfl, hmem⟩ := lookupOpcode_eq_some_iff.mp h
    simp only [opcodeTable, List.mem_cons, List.not_mem_nil, or_false] at hmem
    rcases hmem with rfl | rfl | rfl | rfl | rfl | rfl
    · exact .inl ⟨rfl, rfl⟩
    · exact .inr (.inl ⟨rfl, rfl⟩)
    · exact .inr (.inr (.inl ⟨.ldaImm, rfl, rfl⟩))
    · exact .inr (.inr (.inl ⟨.addImm, rfl, rfl⟩))
    · exact .inr (.inr (.inl ⟨.ldaDir, rfl, rfl⟩))
    · exact .inr (.inr (.inl ⟨.addDir, rfl, rfl⟩))

@[simp] theorem classifyOpcode_opcode (o : OperandOpcode) : classifyOpcode o.opcode = .oneOperand o := by
  cases o <;> rfl

/-- The table's row of an opcode with an operand. -/
@[simp] theorem lookupOpcode_opcode (o : OperandOpcode) : lookupOpcode o.opcode = some ⟨o.opcode, o.operation, 1⟩ := by
  cases o <;> rfl

theorem classifyOpcode_eq_oneOperand_iff {b : Byte} {o : OperandOpcode} :
    classifyOpcode b = .oneOperand o ↔ b = o.opcode := by
  refine ⟨fun h => ?_, fun h => h ▸ classifyOpcode_opcode o⟩
  rcases classifyOpcode_cases b with ⟨-, e⟩ | ⟨-, e⟩ | ⟨o', rfl, e⟩ | ⟨-, e⟩ <;> rw [e] at h <;> cases h
  rfl

/-- The bytes that are whole instructions are the two HALTs (R43, R49). -/
theorem classifyOpcode_eq_inherent_iff {b : Byte} {i : Instr} :
    classifyOpcode b = .inherent i ↔ (b = 0x00#8 ∧ i = .halt) ∨ (b = 0x3E#8 ∧ i = .halt3E) := by
  constructor
  · intro h
    rcases classifyOpcode_cases b with ⟨hb, e⟩ | ⟨hb, e⟩ | ⟨o, -, e⟩ | ⟨-, e⟩ <;> rw [e] at h <;> cases h
    · exact .inl ⟨hb, rfl⟩
    · exact .inr ⟨hb, rfl⟩
  · rintro (⟨rfl, rfl⟩ | ⟨rfl, rfl⟩) <;> rfl

/-- The illegal bytes are those of no row (R51). -/
theorem classifyOpcode_eq_illegal_iff {b : Byte} : classifyOpcode b = .illegal ↔ lookupOpcode b = none := by
  refine ⟨fun h => ?_, classifyOpcode_eq_illegal_of_lookupOpcode⟩
  rcases classifyOpcode_cases b with ⟨-, e⟩ | ⟨-, e⟩ | ⟨o, -, e⟩ | ⟨hb, -⟩
  · rw [e] at h; cases h
  · rw [e] at h; cases h
  · rw [e] at h; cases h
  · exact hb

/-- The inherent bytes are those of the parameter HALT_OPCODES (00_scope.md R5). -/
theorem mem_haltOpcodes_iff {b : Byte} : b ∈ Config.haltOpcodes ↔ ∃ i, classifyOpcode b = .inherent i := by
  simp only [Config.haltOpcodes, List.mem_cons, List.not_mem_nil, or_false, classifyOpcode_eq_inherent_iff]
  constructor
  · rintro (rfl | rfl)
    · exact ⟨.halt, .inl ⟨rfl, rfl⟩⟩
    · exact ⟨.halt3E, .inr ⟨rfl, rfl⟩⟩
  · rintro ⟨i, ⟨h, -⟩ | ⟨h, -⟩⟩
    · exact .inl h
    · exact .inr h

theorem encode_of_inherent {b : Byte} {i : Instr} (h : classifyOpcode b = .inherent i) : encode i = [b] := by
  rcases classifyOpcode_eq_inherent_iff.mp h with ⟨rfl, rfl⟩ | ⟨rfl, rfl⟩ <;> rfl

@[simp] theorem encode_withOperand (o : OperandOpcode) (d : Byte) : encode (o.withOperand d) = [o.opcode, d] := by
  cases o <;> rfl

/-- Every instruction is a HALT or an opcode with its operand byte. -/
theorem Instr.cases_by_format (i : Instr) :
    (∃ b, classifyOpcode b = .inherent i) ∨ ∃ (o : OperandOpcode) (d : Byte), i = o.withOperand d := by
  cases i with
  | halt => exact .inl ⟨0x00#8, rfl⟩
  | halt3E => exact .inl ⟨0x3E#8, rfl⟩
  | ldaImm ii => exact .inr ⟨.ldaImm, ii, rfl⟩
  | ldaDir dd => exact .inr ⟨.ldaDir, dd, rfl⟩
  | addImm ii => exact .inr ⟨.addImm, ii, rfl⟩
  | addDir dd => exact .inr ⟨.addDir, dd, rfl⟩

/-- The decoder reads an encoding back and stops after it. -/
theorem decode_encode_append (i : Instr) (rest : List Byte) : decode (encode i ++ rest) = .ok (i, rest) := by
  rcases i.cases_by_format with ⟨b, hb⟩ | ⟨o, d, rfl⟩
  · rw [encode_of_inherent hb]
    exact decode_of_inherent hb rest
  · rw [encode_withOperand]
    exact decode_of_oneOperand (classifyOpcode_opcode o) d rest

/-- The decoder answers an instruction only where it finds an inherent byte, or an opcode and its operand. -/
theorem decode_ok_cases {bytes rest : List Byte} {i : Instr} (h : decode bytes = .ok (i, rest)) :
    (∃ b, classifyOpcode b = .inherent i ∧ bytes = b :: rest) ∨
    ∃ (o : OperandOpcode) (d : Byte), i = o.withOperand d ∧ bytes = o.opcode :: d :: rest := by
  cases bytes with
  | nil => cases h
  | cons b tail =>
    cases hb : classifyOpcode b with
    | inherent j =>
      rw [decode_of_inherent hb] at h
      cases h
      exact .inl ⟨b, hb, rfl⟩
    | illegal => simp [decode, hb] at h
    | oneOperand o =>
      cases tail with
      | nil => simp [decode, hb] at h
      | cons d rest' =>
        rw [decode_of_oneOperand hb] at h
        cases h
        exact .inr ⟨o, d, rfl, by rw [classifyOpcode_eq_oneOperand_iff.mp hb]⟩

/-- Bytes that decode are the encoding of what they decode to, with the rest behind it. -/
theorem eq_encode_append_of_decode {bytes rest : List Byte} {i : Instr} (h : decode bytes = .ok (i, rest)) :
    bytes = encode i ++ rest := by
  rcases decode_ok_cases h with ⟨b, hb, rfl⟩ | ⟨o, d, rfl, rfl⟩
  · rw [encode_of_inherent hb]; rfl
  · rw [encode_withOperand]; rfl

/-- A byte of no row is rejected with its value, whatever follows it (R51). -/
theorem decode_of_illegal {b : Byte} (h : classifyOpcode b = .illegal) (rest : List Byte) :
    decode (b :: rest) = .error (.unknownOpcode b) := by
  simp only [decode, h]

/-- A table word is decoded as its two low bytes are. -/
theorem decodeTableWord_of_decode {nbits w : Nat} {i : Instr} {rest : List Byte}
    (h : decode (tableBytes nbits w) = .ok (i, rest)) : decodeTableWord nbits w = some i := by
  rw [decodeTableWord, h]

/-- Settles O1: an encoding decodes to its instruction, and the decoder accepts only encodings. -/
theorem decodeInvertsEncode : Obligations.DecodeInvertsEncode := by
  unfold Obligations.DecodeInvertsEncode
  intro bytes i rest
  constructor
  · exact eq_encode_append_of_decode
  · rintro rfl
    exact decode_encode_append i rest

/-- Settles O5: the class of the byte names its row, and what the decoder makes of a byte of that class. -/
theorem decoderFollowsTable : Obligations.DecoderFollowsTable := by
  unfold Obligations.DecoderFollowsTable
  intro b d
  rcases classifyOpcode_cases b with ⟨rfl, h⟩ | ⟨rfl, h⟩ | ⟨o, rfl, h⟩ | ⟨hnone, h⟩
  · exact ⟨rfl, _, _, decode_of_inherent h [d], .inl rfl, rfl⟩
  · exact ⟨rfl, _, _, decode_of_inherent h [d], .inr rfl, rfl⟩
  · rw [lookupOpcode_opcode]
    refine ⟨by cases o <;> rfl, _, _, decode_of_oneOperand h d [], ?_⟩
    cases o with
    | ldaImm => exact ⟨.inl ⟨rfl, rfl⟩, rfl⟩
    | ldaDir => exact ⟨.inr ⟨rfl, rfl⟩, rfl⟩
    | addImm => exact ⟨.inl ⟨rfl, rfl⟩, rfl⟩
    | addDir => exact ⟨.inr ⟨rfl, rfl⟩, rfl⟩
  · rw [hnone]
    exact decode_of_illegal h [d]

/-- Settles O3: each list is the encoding of its instruction and a rest; the last byte has no row. -/
theorem sampleWordsDecode : Obligations.SampleWordsDecode := by
  unfold Obligations.SampleWordsDecode
  exact ⟨decode_encode_append (.ldaImm 0xFE#8) _, decode_encode_append (.ldaDir 0x20#8) _,
    decode_encode_append (.addDir 0x10#8) [],
    decodeTableWord_of_decode (decode_encode_append (.addImm 0xF5#8) []),
    decodeTableWord_of_decode (decode_encode_append .halt3E [0x00#8]),
    decodeTableWord_of_decode (decode_encode_append .halt [0x00#8]), rfl⟩

end Sys2Proof

/-! ## The assembler spelling (30_encoding.md section 5) -/

namespace Sys2Proof

/-- The value of a hexadecimal digit: the inverse of `hexDigit`. -/
def readHexDigit (c : Char) : Nat :=
  if c.toNat < 58 then c.toNat - 48 else c.toNat - 55

/-- The byte that two hexadecimal digits spell: the inverse of `hexByte`. -/
def readHexByte : List Char → Option Byte
  | [hi, lo] => some (BitVec.ofNat 8 (16 * readHexDigit hi + readHexDigit lo))
  | _ => none

/-- The instruction that a spelling stands for: the inverse of `assembly`. -/
def readAssembly : List Char → Option Instr
  | ['H', 'A', 'L', 'T'] => some .halt
  | ['H', 'A', 'L', 'T', '.', '3', 'E'] => some .halt3E
  | 'L' :: 'D' :: 'A' :: ' ' :: '#' :: '$' :: digits => (readHexByte digits).map .ldaImm
  | 'L' :: 'D' :: 'A' :: ' ' :: '$' :: digits => (readHexByte digits).map .ldaDir
  | 'A' :: 'D' :: 'D' :: ' ' :: '#' :: '$' :: digits => (readHexByte digits).map .addImm
  | 'A' :: 'D' :: 'D' :: ' ' :: '$' :: digits => (readHexByte digits).map .addDir
  | _ => none

theorem readHexDigit_hexDigit : ∀ n < 16, readHexDigit (hexDigit n) = n := by decide

theorem readHexByte_hexByte (b : Byte) : readHexByte (hexByte b) = some b := by
  have hb : b.toNat < 256 := b.isLt
  rw [hexByte, readHexByte, readHexDigit_hexDigit _ (by omega), readHexDigit_hexDigit _ (by omega),
    Nat.div_add_mod, BitVec.ofNat_toNat, BitVec.setWidth_eq]

/-- A spelling is read back as the instruction it spells. -/
theorem readAssembly_assembly (i : Instr) : readAssembly (assembly i) = some i := by
  cases i with
  | halt => rfl
  | halt3E => rfl
  | ldaImm ii => exact congrArg (Option.map Instr.ldaImm) (readHexByte_hexByte ii)
  | ldaDir dd => exact congrArg (Option.map Instr.ldaDir) (readHexByte_hexByte dd)
  | addImm ii => exact congrArg (Option.map Instr.addImm) (readHexByte_hexByte ii)
  | addDir dd => exact congrArg (Option.map Instr.addDir) (readHexByte_hexByte dd)

/-- Settles O6: the spelling has a left inverse. -/
theorem assemblySpellingIsInjective : Obligations.AssemblySpellingIsInjective := by
  unfold Obligations.AssemblySpellingIsInjective
  intro i j h
  apply Option.some.inj
  rw [← readAssembly_assembly i, h, readAssembly_assembly]

end Sys2Proof

/-! ## The flag generator: what the flags mean, and that no stale one survives (41_flag_unit.md) -/

namespace Sys2Proof.Machine

/-- Bit 7 of a byte is its high half-range. -/
theorem getLsbD_seven_eq_decide (w : Byte) : w.getLsbD 7 = decide (128 ≤ w.toNat) :=
  BitVec.msb_eq_decide w

/-- A byte read as a signed number. -/
theorem toInt_eq_ite (w : Byte) : w.toInt = if 128 ≤ w.toNat then (w.toNat : Int) - 256 else w.toNat := by
  rw [BitVec.toInt_eq_msb_cond, BitVec.msb_eq_decide]
  simp

theorem add_toNat_mod (a m : Byte) : (a + m).toNat = (a.toNat + m.toNat) % 256 := BitVec.toNat_add a m

/-- Carry is unsigned overflow (41_flag_unit.md section 3): where the sum wraps, bit 7 is in both addends, or in one
and not in the sum. -/
theorem carryOf_add_iff (a m : Byte) : carryOf a m (a + m) = true ↔ 256 ≤ a.toNat + m.toNat := by
  have ha : a.toNat < 256 := a.isLt
  have hm : m.toNat < 256 := m.isLt
  simp only [carryOf_eq_bits, getLsbD_seven_eq_decide, add_toNat_mod, Bool.or_eq_true, Bool.and_eq_true,
    Bool.not_eq_true', decide_eq_true_eq, decide_eq_false_iff_not]
  omega

/-- Overflow is signed overflow (41_flag_unit.md section 3): two addends of one sign give the other sign. -/
theorem overflowOf_add_iff (a m : Byte) :
    overflowOf a m (a + m) = true ↔ (a.toInt + m.toInt < -128 ∨ 127 < a.toInt + m.toInt) := by
  have ha : a.toNat < 256 := a.isLt
  have hm : m.toNat < 256 := m.isLt
  simp only [overflowOf_eq_bits, getLsbD_seven_eq_decide, add_toNat_mod, Bool.or_eq_true, Bool.and_eq_true,
    Bool.not_eq_true', decide_eq_true_eq, decide_eq_false_iff_not, toInt_eq_ite]
  split <;> split <;> omega

/-- The carry does not tell the addends apart. -/
theorem carryOf_comm (a m r : Byte) : carryOf a m r = carryOf m a r := by
  rw [carryOf_eq_bits, carryOf_eq_bits]
  cases a.getLsbD 7 <;> cases m.getLsbD 7 <;> simp

/-- The overflow does not tell the addends apart. -/
theorem overflowOf_comm (a m r : Byte) : overflowOf a m r = overflowOf m a r := by
  rw [overflowOf_eq_bits, overflowOf_eq_bits, Bool.and_comm (m.getLsbD 7), Bool.and_comm (!m.getLsbD 7)]

theorem addFlags_comm (a m ccr : Byte) : addFlags a m ccr = addFlags m a ccr := by
  simp only [addFlags, BitVec.add_comm m a, carryOf_comm m a, overflowOf_comm m a]

/-- A flag whose mask is one bit reads that bit (R13). -/
theorem flagSet_of_mask {f : Flag} {i : Nat} (h : f.mask = BitVec.twoPow 8 i) (hne : f.mask ≠ 0x00#8) (ccr : Byte) :
    flagSet f ccr = ccr.getLsbD i := by
  rw [flagSet, h, BitVec.and_twoPow, ← h]
  cases ccr.getLsbD i
  · rfl
  · simpa using hne

/-- The bit of CCR that each of the computed flags is (R13). -/
theorem flagSet_computed (ccr : Byte) :
    flagSet .c ccr = ccr.getLsbD 0 ∧ flagSet .v ccr = ccr.getLsbD 1 ∧ flagSet .z ccr = ccr.getLsbD 2 ∧
      flagSet .n ccr = ccr.getLsbD 3 :=
  ⟨flagSet_of_mask rfl (by decide) ccr, flagSet_of_mask rfl (by decide) ccr, flagSet_of_mask rfl (by decide) ccr,
    flagSet_of_mask rfl (by decide) ccr⟩

/-- V, Z and N are CCR[3:1]. -/
theorem extractLsb'_one_three_eq_iff {ccr ccr' : Byte} :
    ccr.extractLsb' 1 3 = ccr'.extractLsb' 1 3 ↔
      flagSet .v ccr = flagSet .v ccr' ∧ flagSet .z ccr = flagSet .z ccr' ∧ flagSet .n ccr = flagSet .n ccr' := by
  obtain ⟨-, hv, hz, hn⟩ := flagSet_computed ccr
  obtain ⟨-, hv', hz', hn'⟩ := flagSet_computed ccr'
  rw [hv, hz, hn, hv', hz', hn', BitVec.eq_of_getLsbD_eq_iff]
  simp only [BitVec.getLsbD_extractLsb', Nat.forall_lt_succ_right, Nat.not_lt_zero]
  simp [and_assoc]

/-- C, V, Z and N are CCR[3:0]. -/
theorem extractLsb'_zero_four_eq_iff {ccr ccr' : Byte} :
    ccr.extractLsb' 0 4 = ccr'.extractLsb' 0 4 ↔
      flagSet .c ccr = flagSet .c ccr' ∧ flagSet .v ccr = flagSet .v ccr' ∧ flagSet .z ccr = flagSet .z ccr' ∧
        flagSet .n ccr = flagSet .n ccr' := by
  obtain ⟨hc, hv, hz, hn⟩ := flagSet_computed ccr
  obtain ⟨hc', hv', hz', hn'⟩ := flagSet_computed ccr'
  rw [hc, hv, hz, hn, hc', hv', hz', hn', BitVec.eq_of_getLsbD_eq_iff]
  simp only [BitVec.getLsbD_extractLsb', Nat.forall_lt_succ_right, Nat.not_lt_zero]
  simp [and_assoc]

/-- CCR is its two halves. -/
theorem eq_of_extractLsb'_halves {ccr ccr' : Byte} (hlow : ccr.extractLsb' 0 4 = ccr'.extractLsb' 0 4)
    (hhigh : ccr.extractLsb' 4 4 = ccr'.extractLsb' 4 4) : ccr = ccr' := by
  calc ccr
    _ = ccr.extractLsb' 4 4 ++ ccr.extractLsb' 0 4 := (BitVec.extractLsb'_append_extractLsb' (w := 4) (len := 4)).symm
    _ = ccr'.extractLsb' 4 4 ++ ccr'.extractLsb' 0 4 := by rw [hhigh, hlow]
    _ = ccr' := BitVec.extractLsb'_append_extractLsb' (w := 4) (len := 4)

/-- After a load V, Z and N depend on the byte alone (R69). -/
theorem loadFlags_extractLsb'_one_three (v ccr ccr' : Byte) :
    (loadFlags v ccr).extractLsb' 1 3 = (loadFlags v ccr').extractLsb' 1 3 := by
  rw [extractLsb'_one_three_eq_iff]
  simp

/-- A load on equal low halves gives equal low halves: C is kept, the others are assigned. -/
theorem loadFlags_extractLsb'_low {ccr ccr' : Byte} (h : ccr.extractLsb' 0 4 = ccr'.extractLsb' 0 4) (v : Byte) :
    (loadFlags v ccr).extractLsb' 0 4 = (loadFlags v ccr').extractLsb' 0 4 := by
  obtain ⟨hc, -⟩ := extractLsb'_zero_four_eq_iff.mp h
  rw [extractLsb'_zero_four_eq_iff]
  simp [hc]

/-- After an addition the low half depends on the addends alone (R69). -/
theorem addFlags_extractLsb'_low (a m ccr ccr' : Byte) :
    (addFlags a m ccr).extractLsb' 0 4 = (addFlags a m ccr').extractLsb' 0 4 := by
  rw [extractLsb'_zero_four_eq_iff]
  simp

/-- Settles O10: both sides of each equivalence are compared as ranges of the addends. -/
theorem carryAndOverflowMeanRangeOverflow : Obligations.CarryAndOverflowMeanRangeOverflow := by
  unfold Obligations.CarryAndOverflowMeanRangeOverflow
  exact fun a m => ⟨carryOf_add_iff a m, overflowOf_add_iff a m⟩

/-- Settles O12: each of the flags named is assigned from the operands. -/
theorem flagWritesAreAssignments : Obligations.FlagWritesAreAssignments := by
  unfold Obligations.FlagWritesAreAssignments
  exact fun a m v ccr ccr' => ⟨addFlags_extractLsb'_low a m ccr ccr', loadFlags_extractLsb'_one_three v ccr ccr'⟩

/-- Settles O13: the sum, the carry and the overflow are all symmetric in the addends. -/
theorem additionCommutesWithItsFlags : Obligations.AdditionCommutesWithItsFlags := by
  unfold Obligations.AdditionCommutesWithItsFlags
  exact fun a m ccr => ⟨BitVec.add_comm a m, addFlags_comm a m ccr⟩

end Sys2Proof.Machine

/-! ## Memory and the word read (20_memory.md) -/

namespace Sys2Proof.Machine

/-- Below the top of memory the next address is one more. -/
theorem toNat_add_one {w : Word} (h : w ≠ 0xFFFF#16) : (w + 1#16).toNat = w.toNat + 1 := by
  bv_omega

/-- A word read below the top of memory is the two bytes, the lower address first (R28, R34). -/
theorem memReadWord_of_ne {addr : Word} (h : addr ≠ 0xFFFF#16) (m : Memory) :
    memReadWord m addr = .ok (hiLo (m.read addr.toNat) (m.read (addr.toNat + 1))) := by
  simp only [memReadWord, if_neg h, memRead_eq, toNat_add_one h]

/-- A word read at the top of memory has no second byte (R29). -/
theorem memReadWord_top (m : Memory) : memReadWord m 0xFFFF#16 = .error (.addressWrap 0xFFFF#16) := rfl

/-- Big-endian (R34). -/
theorem hiLo_toNat (hi lo : Byte) : (hiLo hi lo).toNat = 256 * hi.toNat + lo.toNat := by
  rw [hiLo, BitVec.toNat_append, ← Nat.shiftLeft_add_eq_or_of_lt lo.isLt, Nat.shiftLeft_eq, Nat.mul_comm]

/-- Settles O14: a write to canonical memory keeps the form and is read back, and no access faults. -/
theorem memoryReadsBackWrites : Obligations.MemoryReadsBackWrites := by
  unfold Obligations.MemoryReadsBackWrites
  intro m addr addr' v h
  refine ⟨m.write addr.toNat v, memWrite_eq m addr v, Memory.wf_write h (addr_lt_memExtent addr) v, ?_, fun hne => ?_⟩
  · rw [memRead_eq, Memory.read_write h, if_pos rfl]
  · rw [memRead_eq, memRead_eq, Memory.read_write h, if_neg fun heq => hne (BitVec.eq_of_toNat_eq heq.symm)]

/-- Settles O15: the two bytes' word, and the fault where the second byte has no address. -/
theorem wordReadIsBigEndian : Obligations.WordReadIsBigEndian := by
  unfold Obligations.WordReadIsBigEndian
  intro m addr
  refine ⟨fun h => ⟨_, memReadWord_of_ne h m, hiLo_toNat _ _⟩, ?_⟩
  rintro rfl
  exact memReadWord_top m

end Sys2Proof.Machine

/-! ## The resolver's unassigned modes (40_addressing_resolver.md) -/

namespace Sys2Proof.Machine

/-- Relative mode reads its offset at PC and moves nothing (R59). -/
@[simp] theorem resolve_relative (s : State) :
    resolve .relative s = .ok (relativeAddress s.pc (s.mem.read s.pc.toNat), s) := by
  rw [resolve, memRead_eq]

/-- The offset is zero-extended, and the sum wraps (decision D5). -/
theorem relativeAddress_toNat (pc : Word) (rr : Byte) :
    (relativeAddress pc rr).toNat = (pc.toNat + rr.toNat) % 65536 := by
  show (pc + directAddress rr).toNat = _
  rw [BitVec.toNat_add, directAddress_toNat]

/-- IndexedX mode reads its word at PC and advances PC once (R60, decision D4). -/
theorem resolve_indexedX_of_ne {s : State} (h : s.pc ≠ 0xFFFF#16) :
    resolve .indexedX s =
      .ok (indexedAddress s.x (hiLo (s.mem.read s.pc.toNat) (s.mem.read (s.pc.toNat + 1))),
        s.setPc (s.pc + 1#16)) := by
  simp only [resolve, memReadWord_of_ne h, inc16_of_ne h]

theorem resolve_indexedX_top {s : State} (h : s.pc = 0xFFFF#16) :
    resolve .indexedX s = .error (.addressWrap 0xFFFF#16) := by
  simp only [resolve, h, memReadWord_top]

theorem indexedAddress_toNat (x : Word) (hi lo : Byte) :
    (indexedAddress x (hiLo hi lo)).toNat = (x.toNat + (256 * hi.toNat + lo.toNat)) % 65536 := by
  rw [indexedAddress, BitVec.toNat_add, hiLo_toNat]

/-- Settles O17: the mode's equation, and what its address is as a number. -/
theorem resolverRelativeZeroExtends : Obligations.ResolverRelativeZeroExtends := by
  unfold Obligations.ResolverRelativeZeroExtends
  exact fun s => ⟨_, resolve_relative s, relativeAddress_toNat _ _⟩

/-- Settles O18: the mode's equation below the top, its fault at the top, and what its address is as a number. -/
theorem resolverIndexedAdvancesOnce : Obligations.ResolverIndexedAdvancesOnce := by
  unfold Obligations.ResolverIndexedAdvancesOnce
  refine fun s => ⟨fun h => ⟨_, resolve_indexedX_of_ne h, ?_⟩, resolve_indexedX_top⟩
  rw [indexedAddress_toNat, Nat.add_assoc]

end Sys2Proof.Machine

/-! ## What the six instructions commit, and the operand advance (42_lda_add.md section 2) -/

namespace Sys2Proof.Machine

theorem operandAdvance_of_ne {s : State} (h : s.pc ≠ 0xFFFF#16) :
    operandAdvance s = .next (s.setPc (s.pc + 1#16)) := by
  rw [operandAdvance, inc16_of_ne h]

theorem operandAdvance_top {s : State} (h : s.pc = 0xFFFF#16) :
    operandAdvance s = .next (s.setRun (.faulted (.pcOverflow 0xFFFF#16))) := by
  rw [operandAdvance, h, inc16_top]; rfl

/-- What an opcode with operand `d` writes before the operand advance (R76 to R79). -/
def commit (o : OperandOpcode) (d : Byte) (s : State) : State :=
  match o with
  | .ldaImm => loadA d s
  | .ldaDir => loadA (s.mem.read d.toNat) s
  | .addImm => addA d s
  | .addDir => addA (s.mem.read d.toNat) s

/-- An instruction with an operand commits, and then PC advances over the operand. -/
theorem exec_withOperand (o : OperandOpcode) (d : Byte) (s : State) :
    exec (o.withOperand d) s = operandAdvance (commit o d s) := by
  cases o with
  | ldaImm => rfl
  | ldaDir => rw [commit, ← directAddress_toNat, OperandOpcode.withOperand, exec, execLdaDir, memRead_eq]
  | addImm => rfl
  | addDir => rw [commit, ← directAddress_toNat, OperandOpcode.withOperand, exec, execAddDir, memRead_eq]

/-- Every inherent byte is a HALT, and its effect is the halt check's (R87 to R89). -/
theorem exec_of_inherent {b : Byte} {i : Instr} (h : classifyOpcode b = .inherent i) (s : State) :
    exec i s = .next (s.setRun .idle) := by
  rcases classifyOpcode_eq_inherent_iff.mp h with ⟨-, rfl⟩ | ⟨-, rfl⟩ <;> rfl

@[simp] theorem commit_x (o : OperandOpcode) (d : Byte) (s : State) : (commit o d s).x = s.x := by cases o <;> rfl
@[simp] theorem commit_pc (o : OperandOpcode) (d : Byte) (s : State) : (commit o d s).pc = s.pc := by cases o <;> rfl
@[simp] theorem commit_mem (o : OperandOpcode) (d : Byte) (s : State) : (commit o d s).mem = s.mem := by
  cases o <;> rfl
@[simp] theorem commit_run (o : OperandOpcode) (d : Byte) (s : State) : (commit o d s).run = s.run := by
  cases o <;> rfl

/-- A commit writes no inert flag (R70). -/
theorem flagSet_commit_inert {f : Flag} (h : f = .i ∨ f = .h ∨ f = .x ∨ f = .s) (o : OperandOpcode) (d : Byte)
    (s : State) : flagSet f (commit o d s).ccr = flagSet f s.ccr := by
  cases o with
  | ldaImm => exact flagSet_loadFlags_inert h _ _
  | ldaDir => exact flagSet_loadFlags_inert h _ _
  | addImm => exact flagSet_addFlags_inert h _ _ _
  | addDir => exact flagSet_addFlags_inert h _ _ _

@[simp] theorem commit_ccr_high (o : OperandOpcode) (d : Byte) (s : State) :
    (commit o d s).ccr.extractLsb' 4 4 = s.ccr.extractLsb' 4 4 := by
  cases o with
  | ldaImm => exact loadFlags_extractLsb'_high _ _
  | ldaDir => exact loadFlags_extractLsb'_high _ _
  | addImm => exact addFlags_extractLsb'_high _ _ _
  | addDir => exact addFlags_extractLsb'_high _ _ _

/-- A commit does not look at PC. -/
theorem commit_setPc (o : OperandOpcode) (d : Byte) (s : State) (pc : Word) :
    commit o d (s.setPc pc) = (commit o d s).setPc pc := by cases o <;> rfl

/-- A commit does not look at X. -/
theorem commit_setX (o : OperandOpcode) (d : Byte) (s : State) (x : Word) :
    commit o d (s.setX x) = (commit o d s).setX x := by cases o <;> rfl

/-- Where PC can advance over the operand, the instruction completes with its commit (R86). -/
theorem exec_withOperand_of_ne (o : OperandOpcode) (d : Byte) {s : State} (h : s.pc ≠ 0xFFFF#16) :
    exec (o.withOperand d) s = .next ((commit o d s).setPc (s.pc + 1#16)) := by
  rw [exec_withOperand, operandAdvance_of_ne (by rwa [commit_pc]), commit_pc]

/-- Where PC cannot advance over the operand, the commit stands and the Step faults (R108). -/
theorem exec_withOperand_top (o : OperandOpcode) (d : Byte) {s : State} (h : s.pc = 0xFFFF#16) :
    exec (o.withOperand d) s = .next ((commit o d s).setRun (.faulted (.pcOverflow 0xFFFF#16))) := by
  rw [exec_withOperand, operandAdvance_top (by rwa [commit_pc])]

/-- What an instruction with an operand leaves alone; RUN only where PC can advance over the operand. -/
theorem exec_withOperand_frame {o : OperandOpcode} {d : Byte} {s t : State} (h : exec (o.withOperand d) s = .next t) :
    t.x = s.x ∧ t.mem = s.mem ∧ t.ccr.extractLsb' 4 4 = s.ccr.extractLsb' 4 4 ∧
      (t.run = s.run ∨ (s.pc = 0xFFFF#16 ∧ t.run = .faulted (.pcOverflow 0xFFFF#16))) := by
  by_cases hpc : s.pc = 0xFFFF#16
  · rw [exec_withOperand_top o d hpc] at h
    cases h
    exact ⟨commit_x o d s, commit_mem o d s, commit_ccr_high o d s, .inr ⟨hpc, rfl⟩⟩
  · rw [exec_withOperand_of_ne o d hpc] at h
    cases h
    exact ⟨commit_x o d s, commit_mem o d s, commit_ccr_high o d s, .inl (commit_run o d s)⟩

/-- Settles O22: the commit is a load of the operand, and PC moves past it. -/
theorem ldaImmediateLoadsItsOperand : Obligations.LdaImmediateLoadsItsOperand := by
  unfold Obligations.LdaImmediateLoadsItsOperand
  exact fun ii s h => ⟨_, exec_withOperand_of_ne .ldaImm ii h, (loadEffect_loadA ii s).setPc _, rfl, rfl⟩

/-- Settles O23: the commit is a load of the byte in the direct page, and PC moves past the operand. -/
theorem ldaDirectLoadsFromDirectPage : Obligations.LdaDirectLoadsFromDirectPage := by
  unfold Obligations.LdaDirectLoadsFromDirectPage
  exact fun dd s h => ⟨_, exec_withOperand_of_ne .ldaDir dd h, (loadEffect_loadA _ s).setPc _, rfl, rfl⟩

/-- Settles O24: the commit is an addition of the operand, and PC moves past it. -/
theorem addImmediateAddsItsOperand : Obligations.AddImmediateAddsItsOperand := by
  unfold Obligations.AddImmediateAddsItsOperand
  exact fun ii s h => ⟨_, exec_withOperand_of_ne .addImm ii h, (addEffect_addA ii s).setPc _, rfl, rfl⟩

/-- Settles O25: the commit is an addition of the byte in the direct page, and PC moves past the operand. -/
theorem addDirectAddsFromDirectPage : Obligations.AddDirectAddsFromDirectPage := by
  unfold Obligations.AddDirectAddsFromDirectPage
  exact fun dd s h => ⟨_, exec_withOperand_of_ne .addDir dd h, (addEffect_addA _ s).setPc _, rfl, rfl⟩

/-- Settles O26: both HALTs make the same next state, that of the halt check. -/
theorem haltsEndTheRunAndChangeNothingElse : Obligations.HaltsEndTheRunAndChangeNothingElse := by
  unfold Obligations.HaltsEndTheRunAndChangeNothingElse
  exact fun s => ⟨s.setRun .idle, exec_of_inherent (b := 0x00#8) rfl s, exec_of_inherent (b := 0x3E#8) rfl s, rfl, rfl,
    rfl, rfl, rfl, fun _ => rfl⟩

/-- Settles O28: a HALT writes RUN alone; the others commit, and the operand advance moves PC or records its fault. -/
theorem instructionFrame : Obligations.InstructionFrame := by
  unfold Obligations.InstructionFrame
  intro i s t h
  have hload : ∀ operand, (i = .ldaImm operand ∨ i = .ldaDir operand) → flagSet .c t.ccr = flagSet .c s.ccr :=
    fun _ hi => (flagSet_v_c_of_loadFlags (exec_load_ccr hi h)).2
  rcases i.cases_by_format with ⟨b, hb⟩ | ⟨o, d, rfl⟩
  · rw [exec_of_inherent hb] at h
    cases h
    refine ⟨rfl, rfl, fun _ => rfl, rfl, fun _ => ⟨rfl, rfl, rfl⟩, hload, fun ⟨hne, hne3E⟩ => ?_⟩
    rcases classifyOpcode_eq_inherent_iff.mp hb with ⟨-, hi⟩ | ⟨-, hi⟩
    · exact absurd hi hne
    · exact absurd hi hne3E
  · obtain ⟨hx, hmem, hccr, hrun⟩ := exec_withOperand_frame h
    refine ⟨hx, hmem, fun addr => by rw [hmem], hccr, fun hi => ?_, hload, fun _ => hrun⟩
    cases o <;> simp [OperandOpcode.withOperand] at hi

end Sys2Proof.Machine

/-! ## All that a Step can do (43_loop_halt.md, 60_exceptions.md) -/

namespace Sys2Proof.Machine

/-- The next states of a running machine's Step, one constructor for each way it can end (R83 to R90, R108). -/
inductive StepResult (s : State) : State → Prop where
  /-- PC cannot advance over the opcode. -/
  | fetchTop (hpc : s.pc = 0xFFFF#16) : StepResult s (s.setRun (.faulted (.pcOverflow 0xFFFF#16)))
  /-- The byte at PC has no row. -/
  | illegal (hpc : s.pc ≠ 0xFFFF#16) (hop : classifyOpcode (s.mem.read s.pc.toNat) = .illegal) :
    StepResult s ((s.setPc (s.pc + 1#16)).setRun (.faulted (.unknownOpcode (s.mem.read s.pc.toNat))))
  /-- A HALT. -/
  | halt (i : Instr) (hpc : s.pc ≠ 0xFFFF#16) (hop : classifyOpcode (s.mem.read s.pc.toNat) = .inherent i) :
    StepResult s ((s.setPc (s.pc + 1#16)).setRun .idle)
  /-- LDA or ADD, where PC cannot advance over the operand. -/
  | operandTop (o : OperandOpcode) (hpc : s.pc = 0xFFFE#16)
      (hop : classifyOpcode (s.mem.read s.pc.toNat) = .oneOperand o) :
    StepResult s (((commit o (s.mem.read (s.pc.toNat + 1)) s).setPc 0xFFFF#16).setRun
      (.faulted (.pcOverflow 0xFFFF#16)))
  /-- LDA or ADD, completed. -/
  | operand (o : OperandOpcode) (hpc : s.pc.toNat + 2 ≤ 0xFFFF)
      (hop : classifyOpcode (s.mem.read s.pc.toNat) = .oneOperand o) :
    StepResult s ((commit o (s.mem.read (s.pc.toNat + 1)) s).setPc (s.pc + 2#16))

theorem runningStep_top {s : State} (h : s.pc = 0xFFFF#16) :
    runningStep s = .next (s.setRun (.faulted (.pcOverflow 0xFFFF#16))) := by
  rcases runningStep_cases s with ⟨-, e⟩ | ⟨hne, -⟩
  · exact e
  · exact absurd h hne

theorem runningStep_of_ne {s : State} (h : s.pc ≠ 0xFFFF#16) :
    runningStep s = decodeAndExec (s.mem.read s.pc.toNat) (s.setPc (s.pc + 1#16)) := by
  rcases runningStep_cases s with ⟨htop, -⟩ | ⟨-, e⟩
  · exact absurd htop h
  · exact e

theorem decodeAndExec_of_illegal {b : Byte} (h : classifyOpcode b = .illegal) (s : State) :
    decodeAndExec b s = .next (s.setRun (.faulted (.unknownOpcode b))) := by
  rw [decodeAndExec, h]; rfl

theorem decodeAndExec_of_inherent {b : Byte} {i : Instr} (h : classifyOpcode b = .inherent i) (s : State) :
    decodeAndExec b s = exec i s := by
  rw [decodeAndExec, h]

theorem decodeAndExec_of_oneOperand {b : Byte} {o : OperandOpcode} (h : classifyOpcode b = .oneOperand o)
    (s : State) : decodeAndExec b s = exec (o.withOperand (s.mem.read s.pc.toNat)) s := by
  simp only [decodeAndExec, h, memRead_eq]

/-- A Step on an opcode with an operand executes it with the byte after it. -/
theorem runningStep_of_oneOperand {s : State} {o : OperandOpcode} (hpc : s.pc ≠ 0xFFFF#16)
    (hop : classifyOpcode (s.mem.read s.pc.toNat) = .oneOperand o) :
    runningStep s = exec (o.withOperand (s.mem.read (s.pc.toNat + 1))) (s.setPc (s.pc + 1#16)) := by
  rw [runningStep_of_ne hpc, decodeAndExec_of_oneOperand hop, State.setPc_mem, State.setPc_pc, toNat_add_one hpc]

/-- A Step ends as its result says. -/
theorem StepResult.runningStep_eq {s t : State} (h : StepResult s t) : runningStep s = .next t := by
  cases h with
  | fetchTop hpc => exact runningStep_top hpc
  | illegal hpc hop => rw [runningStep_of_ne hpc, decodeAndExec_of_illegal hop]
  | halt i hpc hop => rw [runningStep_of_ne hpc, decodeAndExec_of_inherent hop, exec_of_inherent hop]
  | operandTop o hpc hop =>
    rw [runningStep_of_oneOperand (by simp [hpc]) hop, exec_withOperand_top _ _ (by simp [hpc]), commit_setPc, hpc]
    rfl
  | operand o hpc hop =>
    rw [runningStep_of_oneOperand (by bv_omega) hop, exec_withOperand_of_ne _ _ (by rw [State.setPc_pc]; bv_omega),
      commit_setPc, State.setPc_pc, BitVec.add_assoc]
    rfl

/-- Every state has a result. -/
theorem exists_stepResult (s : State) : ∃ t, StepResult s t := by
  by_cases hpc : s.pc = 0xFFFF#16
  · exact ⟨_, .fetchTop hpc⟩
  cases hop : classifyOpcode (s.mem.read s.pc.toNat) with
  | illegal => exact ⟨_, .illegal hpc hop⟩
  | inherent i => exact ⟨_, .halt i hpc hop⟩
  | oneOperand o =>
    by_cases hpc' : s.pc = 0xFFFE#16
    · exact ⟨_, .operandTop o hpc' hop⟩
    · exact ⟨_, .operand o (by bv_omega) hop⟩

/-- A step answers a next state exactly when the machine runs, and then its result. -/
theorem step_next_iff {s t : State} : step s = .next t ↔ s.run = .running ∧ StepResult s t := by
  constructor
  · intro h
    obtain ⟨hrun, hstep⟩ := step_next h
    obtain ⟨t', ht'⟩ := exists_stepResult s
    obtain rfl : t' = t := Host.Outcome.next.inj (ht'.runningStep_eq.symm.trans hstep)
    exact ⟨hrun, ht'⟩
  · rintro ⟨hrun, h⟩
    rw [step_running hrun, h.runningStep_eq]

theorem exists_step_next {s : State} (h : s.run = .running) : ∃ t, step s = .next t := by
  obtain ⟨t, ht⟩ := exists_stepResult s
  exact ⟨t, step_next_iff.mpr ⟨h, ht⟩⟩

/-- No Step changes memory, X or CCR[7:4]. -/
theorem StepResult.frame {s t : State} (h : StepResult s t) :
    t.mem = s.mem ∧ t.x = s.x ∧ t.ccr.extractLsb' 4 4 = s.ccr.extractLsb' 4 4 := by
  cases h <;> simp

/-- A Step writes no inert flag. -/
theorem StepResult.inert {s t : State} (h : StepResult s t) {f : Flag} (hf : f = .i ∨ f = .h ∨ f = .x ∨ f = .s) :
    flagSet f t.ccr = flagSet f s.ccr := by
  cases h with
  | fetchTop | illegal | halt => rfl
  | operandTop o hpc hop => exact flagSet_commit_inert hf o _ s
  | operand o hpc hop => exact flagSet_commit_inert hf o _ s

/-- A Step of a running machine that leaves it running has completed an LDA or ADD. -/
theorem StepResult.of_running {s t : State} (h : StepResult s t) (ht : t.run = .running) :
    ∃ o, s.pc.toNat + 2 ≤ 0xFFFF ∧ classifyOpcode (s.mem.read s.pc.toNat) = .oneOperand o ∧
      t = (commit o (s.mem.read (s.pc.toNat + 1)) s).setPc (s.pc + 2#16) := by
  cases h with
  | fetchTop | illegal | halt | operandTop => cases ht
  | operand o hpc hop => exact ⟨o, hpc, hop, rfl⟩

/-- Two below the top of memory, PC moves up by 2. -/
theorem toNat_add_two {w : Word} (h : w.toNat + 2 ≤ 0xFFFF) : (w + 2#16).toNat = w.toNat + 2 := by
  bv_omega

/-- A Step that leaves the machine running moves PC up by exactly 2. -/
theorem StepResult.pc_of_running {s t : State} (h : StepResult s t) (ht : t.run = .running) :
    t.pc.toNat = s.pc.toNat + 2 := by
  obtain ⟨o, hpc, -, rfl⟩ := h.of_running ht
  exact toNat_add_two hpc

/-- Below the top of memory every Step moves PC up. -/
theorem StepResult.pc_lt {s t : State} (h : StepResult s t) (hpc : s.pc ≠ 0xFFFF#16) : s.pc.toNat < t.pc.toNat := by
  cases h with
  | fetchTop hpc' => exact absurd hpc' hpc
  | illegal | halt => simp [toNat_add_one hpc]
  | operandTop o hpc' => simp [hpc']
  | operand o hpc' => simp [toNat_add_two hpc']

/-- At the top of memory a Step records the overflow and changes nothing else (R84). -/
theorem StepResult.of_top {s t : State} (h : StepResult s t) (hpc : s.pc = 0xFFFF#16) :
    t = s.setRun (.faulted (.pcOverflow 0xFFFF#16)) := by
  cases h with
  | fetchTop => rfl
  | illegal hpc' | halt _ hpc' => exact absurd hpc hpc'
  | operandTop o hpc' => simp [hpc] at hpc'
  | operand o hpc' => simp [hpc] at hpc'

theorem StepResult.pc_le {s t : State} (h : StepResult s t) : s.pc.toNat ≤ t.pc.toNat := by
  by_cases hpc : s.pc = 0xFFFF#16
  · rw [h.of_top hpc, State.setRun_pc]
  · exact (h.pc_lt hpc).le

/-- A Step faults only in two ways (60_exceptions.md section 1). -/
theorem StepResult.of_faulted {s t : State} (h : StepResult s t) (hrun : s.run = .running) {kind : Fault}
    (ht : t.run = .faulted kind) :
    (kind = .pcOverflow 0xFFFF#16 ∧ t.pc = 0xFFFF#16) ∨
    (kind = .unknownOpcode (s.mem.read s.pc.toNat) ∧ lookupOpcode (s.mem.read s.pc.toNat) = none ∧
      t.pc.toNat = s.pc.toNat + 1) := by
  cases h with
  | fetchTop hpc => cases ht; exact .inl ⟨rfl, hpc⟩
  | illegal hpc hop => cases ht; exact .inr ⟨rfl, classifyOpcode_eq_illegal_iff.mp hop, toNat_add_one hpc⟩
  | halt => cases ht
  | operandTop o hpc => cases ht; exact .inl ⟨rfl, rfl⟩
  | operand o hpc => simp [hrun] at ht

/-- A Step ends the run exactly at a HALT below the top of memory. -/
theorem StepResult.idle_iff {s t : State} (h : StepResult s t) (hrun : s.run = .running) :
    t.run = .idle ↔ s.mem.read s.pc.toNat ∈ Config.haltOpcodes ∧ s.pc ≠ 0xFFFF#16 := by
  rw [mem_haltOpcodes_iff]
  cases h with
  | fetchTop hpc => simp [hpc]
  | illegal hpc hop => simp [hop]
  | halt i hpc hop => simp [hop, hpc]
  | operandTop o hpc hop => simp [hop]
  | operand o hpc hop => simp [hop, hrun]

/-- The Step that ends a run moves PC over the HALT and writes RUN alone (R87). -/
theorem StepResult.of_idle {s t : State} (h : StepResult s t) (hrun : s.run = .running) (ht : t.run = .idle) :
    t = (s.setPc (s.pc + 1#16)).setRun .idle := by
  cases h with
  | fetchTop | illegal | operandTop => cases ht
  | halt => rfl
  | operand => simp [hrun] at ht

end Sys2Proof.Machine

/-! ## Whole Steps, from the bytes in memory (43_loop_halt.md, 60_exceptions.md) -/

namespace Sys2Proof.Machine

/-- The effect of a load says nothing of RUN. -/
theorem LoadEffect.setRun {v : Byte} {s t : State} (h : LoadEffect v s t) (r : RunState) :
    LoadEffect v s (t.setRun r) :=
  { h with }

/-- The effect of an addition says nothing of RUN. -/
theorem AddEffect.setRun {m : Byte} {s t : State} (h : AddEffect m s t) (r : RunState) :
    AddEffect m s (t.setRun r) :=
  { h with }

/-- The Step on an opcode with an operand, two below the top of memory. -/
theorem step_of_opcode {s : State} (o : OperandOpcode) (hrun : s.run = .running) (hpc : s.pc.toNat + 2 ≤ 0xFFFF)
    (hop : s.mem.read s.pc.toNat = o.opcode) :
    step s = .next ((commit o (s.mem.read (s.pc.toNat + 1)) s).setPc (s.pc + 2#16)) :=
  step_next_iff.mpr ⟨hrun, .operand o hpc (by rw [hop, classifyOpcode_opcode])⟩

/-- The Step on an opcode with an operand whose operand is the last byte of memory. -/
theorem step_of_opcode_top {s : State} (o : OperandOpcode) (hrun : s.run = .running) (hpc : s.pc = 0xFFFE#16)
    (hop : s.mem.read 0xFFFE = o.opcode) :
    step s = .next (((commit o (s.mem.read 0xFFFF) s).setPc 0xFFFF#16).setRun (.faulted (.pcOverflow 0xFFFF#16))) := by
  have hpc' : s.pc.toNat = 0xFFFE := by rw [hpc]; rfl
  have h : StepResult s _ := .operandTop o hpc (by rw [hpc', hop, classifyOpcode_opcode])
  rw [hpc'] at h
  exact step_next_iff.mpr ⟨hrun, h⟩

/-- Where the two bytes at PC decode, the Step is the instruction's exec after Fetch (R83). -/
theorem step_of_decode {s : State} {i : Instr} {rest : List Byte} (hrun : s.run = .running) (hpc : s.pc ≠ 0xFFFF#16)
    (hdec : decode [s.mem.read s.pc.toNat, s.mem.read (s.pc.toNat + 1)] = .ok (i, rest)) :
    step s = exec i (s.setPc (s.pc + 1#16)) := by
  rw [step_running hrun]
  rcases decode_ok_cases hdec with ⟨b, hb, hbytes⟩ | ⟨o, d, rfl, hbytes⟩
  · obtain ⟨rfl, -⟩ := List.cons.inj hbytes
    rw [runningStep_of_ne hpc, decodeAndExec_of_inherent hb]
  · obtain ⟨hop, hd⟩ := List.cons.inj hbytes
    obtain ⟨rfl, -⟩ := List.cons.inj hd
    rw [runningStep_of_oneOperand hpc (classifyOpcode_eq_oneOperand_iff.mpr hop)]

/-- Settles O29: the decoder answers a HALT or an opcode and its operand, and the Step executes the same. -/
theorem stepRunsTheDecodedInstruction : Obligations.StepRunsTheDecodedInstruction := by
  unfold Obligations.StepRunsTheDecodedInstruction
  exact fun _ _ _ hrun hpc hdec => step_of_decode hrun hpc hdec

/-- Settles O31: a running machine has a result of its Step, and RUN decides the answer otherwise. -/
theorem stepIsTakenExactlyWhileRunning : Obligations.StepIsTakenExactlyWhileRunning := by
  unfold Obligations.StepIsTakenExactlyWhileRunning
  exact fun s => ⟨⟨fun ⟨_, h⟩ => (step_next_iff.mp h).1, exists_step_next⟩, step_idle, fun _ => step_faulted⟩

/-- Settles O32: the results of a Step on an opcode with an operand and on a HALT. -/
theorem stepAdvancesPcByInstructionLength : Obligations.StepAdvancesPcByInstructionLength := by
  unfold Obligations.StepAdvancesPcByInstructionLength
  refine fun s hrun => ⟨fun hop hpc => ?_, fun hop hpc => ?_⟩
  · have ⟨o, ho⟩ : ∃ o : OperandOpcode, s.mem.read s.pc.toNat = o.opcode := by
      rcases hop with h | h | h | h
      · exact ⟨.ldaImm, h⟩
      · exact ⟨.ldaDir, h⟩
      · exact ⟨.addImm, h⟩
      · exact ⟨.addDir, h⟩
    exact ⟨_, step_of_opcode o hrun hpc ho, toNat_add_two hpc, (commit_run o _ s).trans hrun⟩
  · have hne : s.pc ≠ 0xFFFF#16 := by bv_omega
    obtain ⟨i, hi⟩ := mem_haltOpcodes_iff.mp (show s.mem.read s.pc.toNat ∈ Config.haltOpcodes by
      simpa [Config.haltOpcodes] using hop)
    exact ⟨_, step_next_iff.mpr ⟨hrun, .halt i hne hi⟩, toNat_add_one hne, rfl, rfl, rfl⟩

/-- Settles O33: each opcode's Step is its commit with the byte after it, and PC. -/
theorem stepExecutesLoadsAndAddsFromMemory : Obligations.StepExecutesLoadsAndAddsFromMemory := by
  unfold Obligations.StepExecutesLoadsAndAddsFromMemory
  rintro s hrun hpc _ rfl
  exact ⟨fun hop => ⟨_, step_of_opcode .ldaImm hrun hpc hop, (loadEffect_loadA _ s).setPc _⟩,
    fun hop => ⟨_, step_of_opcode .ldaDir hrun hpc hop, (loadEffect_loadA _ s).setPc _⟩,
    fun hop => ⟨_, step_of_opcode .addImm hrun hpc hop, (addEffect_addA _ s).setPc _⟩,
    fun hop => ⟨_, step_of_opcode .addDir hrun hpc hop, (addEffect_addA _ s).setPc _⟩⟩

/-- Settles O34: the result of a Step at the top of memory. -/
theorem fetchAtTopOfMemoryFaults : Obligations.FetchAtTopOfMemoryFaults := by
  unfold Obligations.FetchAtTopOfMemoryFaults
  exact fun s hrun hpc => ⟨_, step_next_iff.mpr ⟨hrun, .fetchTop hpc⟩, rfl, rfl, rfl, rfl, rfl, rfl⟩

/-- Settles O35: each opcode's Step at 0xFFFE is its commit, PC at the operand, and the fault. -/
theorem operandAdvanceFaultKeepsCommit : Obligations.OperandAdvanceFaultKeepsCommit := by
  unfold Obligations.OperandAdvanceFaultKeepsCommit
  rintro s _ hrun hpc rfl
  exact ⟨fun hop => ⟨_, step_of_opcode_top .ldaImm hrun hpc hop, ((loadEffect_loadA _ s).setPc _).setRun _, rfl, rfl⟩,
    fun hop => ⟨_, step_of_opcode_top .ldaDir hrun hpc hop, ((loadEffect_loadA _ s).setPc _).setRun _, rfl, rfl⟩,
    fun hop => ⟨_, step_of_opcode_top .addImm hrun hpc hop, ((addEffect_addA _ s).setPc _).setRun _, rfl, rfl⟩,
    fun hop => ⟨_, step_of_opcode_top .addDir hrun hpc hop, ((addEffect_addA _ s).setPc _).setRun _, rfl, rfl⟩⟩

/-- The bytes of no row are those that are none of the six (R51). -/
theorem lookupOpcode_eq_none_iff_not_mem {b : Byte} :
    lookupOpcode b = none ↔ b ∉ [0x00#8, 0x3E#8, 0x86#8, 0x8B#8, 0x96#8, 0x9B#8] := by
  show lookupOpcode b = none ↔ b ∉ opcodeTable.map OpcodeRow.opcode
  rw [lookupOpcode_eq_none_iff, List.mem_map]
  exact ⟨fun h ⟨row, hmem, hrow⟩ => h row hmem hrow, fun h row hmem hrow => h ⟨row, hmem, hrow⟩⟩

/-- Settles O36: the six bytes leave the listed ranges, and an illegal byte is rejected by decoder and Step. -/
theorem illegalOpcodeFaultsByName : Obligations.IllegalOpcodeFaultsByName := by
  unfold Obligations.IllegalOpcodeFaultsByName
  refine ⟨fun b => ?_, fun b hb => ?_⟩
  · rw [lookupOpcode_eq_none_iff_not_mem]
    simp only [List.mem_cons, List.not_mem_nil, or_false]
    bv_omega
  · have hill := classifyOpcode_eq_illegal_iff.mpr (lookupOpcode_eq_none_iff_not_mem.mpr hb)
    refine ⟨decode_of_illegal hill, ?_⟩
    rintro s hrun hpc rfl
    exact ⟨_, step_next_iff.mpr ⟨hrun, .illegal hpc hill⟩, rfl, rfl, rfl, rfl, rfl, rfl⟩

/-- Settles O37: of the five ways a Step ends, three record a fault. -/
theorem onlyTwoFaultKindsOccur : Obligations.OnlyTwoFaultKindsOccur := by
  unfold Obligations.OnlyTwoFaultKindsOccur
  intro s t kind h ht
  obtain ⟨hrun, hres⟩ := step_next_iff.mp h
  exact hres.of_faulted hrun ht

/-- Settles O38: of the five ways a Step ends, one leaves RUN Idle. -/
theorem stepHaltsExactlyOnHaltOpcodes : Obligations.StepHaltsExactlyOnHaltOpcodes := by
  unfold Obligations.StepHaltsExactlyOnHaltOpcodes
  intro s t h
  obtain ⟨hrun, hres⟩ := step_next_iff.mp h
  exact hres.idle_iff hrun

/-- Settles O39: every result moves PC up or leaves it, and the one that leaves the machine running moves it by 2. -/
theorem pcNeverDecreases : Obligations.PcNeverDecreases := by
  unfold Obligations.PcNeverDecreases
  intro s t h
  obtain ⟨-, hres⟩ := step_next_iff.mp h
  exact ⟨hres.pc_le, hres.pc_of_running⟩

/-- Settles O40: no result writes memory, X or an inert flag. -/
theorem stepPreservesMemoryIndexAndInertFlags : Obligations.StepPreservesMemoryIndexAndInertFlags := by
  unfold Obligations.StepPreservesMemoryIndexAndInertFlags
  intro s t h
  obtain ⟨-, hres⟩ := step_next_iff.mp h
  obtain ⟨hmem, hx, -⟩ := hres.frame
  exact ⟨hmem, hx, fun _ hf => hres.inert hf⟩

/-- Settles O19: the resolver's last mode, the rows of the table, and the two kinds of fault a Step records. -/
theorem resolverNoneFailsAndIsUnreachable : Obligations.ResolverNoneFailsAndIsUnreachable := by
  unfold Obligations.ResolverNoneFailsAndIsUnreachable
  refine ⟨fun _ => rfl, fun b row h => ?_, fun s t h ht => ?_⟩
  · have selectable : ∀ row ∈ opcodeTable, row.operation ≠ .lda .none ∧ row.operation ≠ .add .none := by decide
    exact selectable row (lookupOpcode_eq_some_iff.mp h).2
  · rcases onlyTwoFaultKindsOccur s t _ h ht with ⟨hkind, -⟩ | ⟨hkind, -⟩ <;> cases hkind

end Sys2Proof.Machine

/-! ## The invariant over a Step (60_exceptions.md section 4) -/

namespace Sys2Proof.Machine

theorem State.inv_iff (s : State) : s.inv = true ↔ s.mem.wf = true ∧ s.latchOk = true := by
  rw [State.inv, Bool.and_eq_true]

/-- A latch that records no fault agrees with anything. -/
theorem State.latchOk_of_not_faulted {s : State} (h : s.run = .idle ∨ s.run = .running) : s.latchOk = true := by
  rcases h with h | h <;> simp [State.latchOk, h]

theorem State.latchOk_pcOverflow {s : State} (hpc : s.pc = 0xFFFF#16)
    (hrun : s.run = .faulted (.pcOverflow 0xFFFF#16)) : s.latchOk = true := by
  simp [State.latchOk, hrun, hpc]

/-- PC just past an illegal byte agrees with a latch that records it. -/
theorem State.latchOk_unknownOpcode {s : State} {pc : Word} (hne : pc ≠ 0xFFFF#16) (hpc : s.pc = pc + 1#16)
    (hrun : s.run = .faulted (.unknownOpcode (s.mem.read pc.toNat)))
    (hop : lookupOpcode (s.mem.read pc.toNat) = none) : s.latchOk = true := by
  have hpos : pc + 1#16 ≠ 0x0000#16 := by bv_omega
  simp [State.latchOk, hrun, hpc, hop, hpos]

/-- Every result of a Step has a latch that agrees with PC and memory. -/
theorem StepResult.latchOk {s t : State} (h : StepResult s t) (hrun : s.run = .running) : t.latchOk = true := by
  cases h with
  | fetchTop hpc => exact State.latchOk_pcOverflow hpc rfl
  | illegal hpc hop => exact State.latchOk_unknownOpcode hpc rfl rfl (classifyOpcode_eq_illegal_iff.mp hop)
  | halt => exact State.latchOk_of_not_faulted (.inl rfl)
  | operandTop => exact State.latchOk_pcOverflow rfl rfl
  | operand o => exact State.latchOk_of_not_faulted (.inr ((commit_run o _ s).trans hrun))

/-- A Step keeps the invariant: memory is the same list, and the latch is one of the results'. -/
theorem step_inv {s t : State} (hs : s.inv = true) (h : step s = .next t) : t.inv = true := by
  obtain ⟨hrun, hres⟩ := step_next_iff.mp h
  obtain ⟨hmem, -⟩ := hres.frame
  obtain ⟨hwf, -⟩ := s.inv_iff.mp hs
  exact t.inv_iff.mpr ⟨hmem ▸ hwf, hres.latchOk hrun⟩

/-- Settles O58: a Step keeps memory, and each of its results has a consistent latch. -/
theorem stepKeepsInvariant : Obligations.StepKeepsInvariant := by
  unfold Obligations.StepKeepsInvariant
  exact fun s t hs h => step_inv hs h

/-- Settles O57: no cell is listed at reset, and RUN is Idle. -/
theorem resetSatisfiesInvariant : Obligations.ResetSatisfiesInvariant := by
  unfold Obligations.ResetSatisfiesInvariant
  exact State.reset.inv_iff.mpr ⟨rfl, State.latchOk_of_not_faulted (.inl rfl)⟩

end Sys2Proof.Machine

/-! ## Bytes at consecutive addresses, and the fetch word (70_reset_and_hazards.md section 1) -/

namespace Sys2Proof.Machine

/-- Memory holds these bytes from `addr` upward. -/
def Memory.Holds (m : Memory) (addr : Nat) (bytes : List Byte) : Prop :=
  ∀ k (h : k < bytes.length), m.read (addr + k) = bytes[k]

@[simp] theorem Memory.holds_nil (m : Memory) (addr : Nat) : m.Holds addr [] :=
  fun k h => absurd h (Nat.not_lt_zero k)

@[simp] theorem Memory.holds_cons {m : Memory} {addr : Nat} {b : Byte} {rest : List Byte} :
    m.Holds addr (b :: rest) ↔ m.read addr = b ∧ m.Holds (addr + 1) rest := by
  constructor
  · intro h
    refine ⟨h 0 (Nat.zero_lt_succ _), fun k hk => ?_⟩
    rw [Nat.add_assoc, Nat.add_comm 1]
    exact h (k + 1) (Nat.succ_lt_succ hk)
  · rintro ⟨hb, hrest⟩ k hk
    cases k with
    | zero => exact hb
    | succ k =>
      have hnext := hrest k (Nat.lt_of_succ_lt_succ hk)
      rwa [Nat.add_assoc, Nat.add_comm 1] at hnext

/-- Placed bytes leave every cell outside their addresses. -/
theorem placeBytes_read_outside {bytes : List Byte} {addr : Nat} {m : Memory} (h : m.wf = true) {b : Nat}
    (hb : b < addr ∨ addr + bytes.length ≤ b) : (placeBytes bytes addr m).read b = m.read b := by
  induction bytes generalizing addr m with
  | nil => rfl
  | cons v rest ih =>
    rw [List.length_cons] at hb
    unfold placeBytes
    split
    · rw [ih (Memory.wf_write h ‹_› v) (by omega), Memory.read_write h, if_neg (by omega)]
    · rfl

/-- Bytes that have a place are read back from it. -/
theorem placeBytes_holds {bytes : List Byte} {addr : Nat} {m : Memory} (h : m.wf = true)
    (hfit : addr + bytes.length ≤ Config.memExtent) : (placeBytes bytes addr m).Holds addr bytes := by
  induction bytes generalizing addr m with
  | nil => exact Memory.holds_nil _ addr
  | cons v rest ih =>
    rw [List.length_cons] at hfit
    have haddr : addr < Config.memExtent := by omega
    have hwf := Memory.wf_write h haddr v
    rw [placeBytes, if_pos haddr, Memory.holds_cons]
    refine ⟨?_, ih hwf (by omega)⟩
    rw [placeBytes_read_outside hwf (.inl (Nat.lt_succ_self addr)), Memory.read_write h, if_pos rfl]

/-- A table word of an instruction's own length has the instruction's bytes lowest (R42, R53). -/
theorem exists_tableBytes_eq_encode (i : Instr) :
    ∃ w rest, tableBytes (8 * (encode i).length) w = encode i ++ rest := by
  rcases i.cases_by_format with ⟨b, hb⟩ | ⟨o, d, rfl⟩
  · refine ⟨b.toNat, [0x00#8], ?_⟩
    have hlt : b.toNat < 256 := b.isLt
    rw [encode_of_inherent hb]
    simp [tableBytes, Nat.mod_eq_of_lt hlt, Nat.div_eq_of_lt hlt]
  · refine ⟨o.opcode.toNat + 256 * d.toNat, [], ?_⟩
    have hop : o.opcode.toNat < 256 := o.opcode.isLt
    have hd : d.toNat < 256 := d.isLt
    have hlow : BitVec.ofNat 8 (o.opcode.toNat + 256 * d.toNat) = o.opcode := by
      apply BitVec.eq_of_toNat_eq; rw [BitVec.toNat_ofNat]; omega
    have hhigh : BitVec.ofNat 8 ((o.opcode.toNat + 256 * d.toNat) / 256) = d := by
      apply BitVec.eq_of_toNat_eq; rw [BitVec.toNat_ofNat]; omega
    have hw : (o.opcode.toNat + 256 * d.toNat) % 2 ^ 16 = o.opcode.toNat + 256 * d.toNat :=
      Nat.mod_eq_of_lt (by omega)
    rw [encode_withOperand, tableBytes, show 8 * [o.opcode, d].length = 16 from rfl, hw, hlow, hhigh]
    rfl

/-- A fetch word whose bytes decode is run by the next Step. -/
theorem step_withFetchWord {s : State} {nbits w : Nat} {i : Instr} {rest : List Byte} (h : s.mem.wf = true)
    (hpc : s.pc ≠ 0xFFFF#16) (hdec : decode (tableBytes nbits w) = .ok (i, rest)) :
    step (s.withFetchWord nbits w) = exec i ((s.withFetchWord nbits w).setPc (s.pc + 1#16)) := by
  obtain ⟨b, d, hbytes⟩ : ∃ b d, tableBytes nbits w = [b, d] := ⟨_, _, rfl⟩
  have hfit : s.pc.toNat + [b, d].length ≤ Config.memExtent := by
    show s.pc.toNat + 2 ≤ 65536
    bv_omega
  have hplaced := placeBytes_holds h hfit
  simp only [Memory.holds_cons] at hplaced
  obtain ⟨hb, hd, -⟩ := hplaced
  refine step_of_decode (rest := rest) rfl hpc ?_
  simp only [State.withFetchWord, State.setRun_mem, State.setRun_pc, State.setMem_mem, State.setMem_pc, hbytes, hb, hd]
  rwa [hbytes] at hdec

/-- Settles O30: the word that spells the instruction is placed at PC, decoded from there and executed. -/
theorem fetchWordRunsTheInstruction : Obligations.FetchWordRunsTheInstruction := by
  unfold Obligations.FetchWordRunsTheInstruction
  intro i s h hpc
  obtain ⟨w, rest, hw⟩ := exists_tableBytes_eq_encode i
  have hdec : decode (tableBytes (8 * (encode i).length) w) = .ok (i, rest) := by rw [hw, decode_encode_append]
  refine ⟨w, _, decodeTableWord_of_decode hdec, rfl, step_withFetchWord h hpc hdec, rfl, rfl, rfl, rfl, rfl,
    fun addr hne hne' => placeBytes_read_outside h ?_⟩
  rw [show (tableBytes (8 * (encode i).length) w).length = 2 from rfl]
  omega

end Sys2Proof.Machine

/-! ## The spec's sequencer (43_loop_halt.md R83, 42_lda_add.md R74 and R75) -/

namespace Sys2Proof.Machine

/-- Where its mode resolves, LDA commits the byte at EA and the sequencer advances PC. -/
theorem runOperation_lda_of_resolve_ok {mode : Mode} {s s' : State} {ea : Word} (h : resolve mode s = .ok (ea, s')) :
    runOperation (.lda mode) s = operandAdvance (loadA (s'.mem.read ea.toNat) s') := by
  rw [runOperation, ldaMode_of_resolve_ok h]; rfl

/-- Where its mode resolves, ADD commits the byte at EA and the sequencer advances PC. -/
theorem runOperation_add_of_resolve_ok {mode : Mode} {s s' : State} {ea : Word} (h : resolve mode s = .ok (ea, s')) :
    runOperation (.add mode) s = operandAdvance (addA (s'.mem.read ea.toNat) s') := by
  rw [runOperation, addMode_of_resolve_ok h]; rfl

/-- The executors that go through the resolver do what the instruction with its operand byte does (log 5). -/
theorem runOperation_operation (o : OperandOpcode) (s : State) :
    runOperation o.operation s = exec (o.withOperand (s.mem.read s.pc.toNat)) s := by
  rw [exec_withOperand]
  cases o with
  | ldaImm => exact runOperation_lda_of_resolve_ok (resolve_immediate s)
  | addImm => exact runOperation_add_of_resolve_ok (resolve_immediate s)
  | ldaDir => exact (runOperation_lda_of_resolve_ok (resolve_direct s)).trans (by rw [directAddress_toNat, commit])
  | addDir => exact (runOperation_add_of_resolve_ok (resolve_direct s)).trans (by rw [directAddress_toNat, commit])

/-- Below the top of memory the sequencer looks the byte up and runs its row's operation. -/
theorem sequencerStep_of_ne {s : State} (h : s.pc ≠ 0xFFFF#16) :
    sequencerStep s =
      (lookupOpcode (s.mem.read s.pc.toNat)).elim
        (raise (.unknownOpcode (s.mem.read s.pc.toNat)) (s.setPc (s.pc + 1#16)))
        (fun row => runOperation row.operation (s.setPc (s.pc + 1#16))) := by
  simp only [sequencerStep, memRead_eq, inc16_of_ne h]
  cases lookupOpcode (s.mem.read s.pc.toNat) <;> rfl

theorem sequencerStep_top {s : State} (h : s.pc = 0xFFFF#16) :
    sequencerStep s = .next (s.setRun (.faulted (.pcOverflow 0xFFFF#16))) := by
  simp only [sequencerStep, memRead_eq, h, inc16_top]; rfl

/-- The table and the byte's class lead to the same next state. -/
theorem sequencerStep_eq_runningStep (s : State) : sequencerStep s = runningStep s := by
  by_cases hpc : s.pc = 0xFFFF#16
  · rw [sequencerStep_top hpc, runningStep_top hpc]
  rw [sequencerStep_of_ne hpc, runningStep_of_ne hpc]
  rcases classifyOpcode_cases (s.mem.read s.pc.toNat) with ⟨hb, h⟩ | ⟨hb, h⟩ | ⟨o, hb, h⟩ | ⟨hnone, h⟩
  · rw [decodeAndExec_of_inherent h, hb]; rfl
  · rw [decodeAndExec_of_inherent h, hb]; rfl
  · rw [decodeAndExec_of_oneOperand h, hb, lookupOpcode_opcode, Option.elim_some, runOperation_operation]
  · rw [decodeAndExec_of_illegal h, hnone]; rfl

/-- Settles O44: both Steps agree at the top of memory and on each class of opcode. -/
theorem stepIsTheSpecSequencer : Obligations.StepIsTheSpecSequencer := by
  unfold Obligations.StepIsTheSpecSequencer
  intro s hrun
  rw [step_running hrun, sequencerStep_eq_runningStep]

/-- LDA in a mode that resolves, where PC can then advance: the byte at EA is loaded. -/
theorem runOperation_lda_effect {mode : Mode} {s : State} {ea pc : Word} (h : resolve mode s = .ok (ea, s.setPc pc))
    (hpc : pc ≠ 0xFFFF#16) :
    ∃ t, runOperation (.lda mode) s = .next t ∧ LoadEffect (s.mem.read ea.toNat) s t ∧
      t.pc.toNat = pc.toNat + 1 ∧ t.run = s.run :=
  ⟨_, (runOperation_lda_of_resolve_ok h).trans (operandAdvance_of_ne hpc),
    ((loadEffect_loadA _ s).setPc pc).setPc _, toNat_add_one hpc, rfl⟩

/-- ADD in a mode that resolves, where PC can then advance: the byte at EA is added. -/
theorem runOperation_add_effect {mode : Mode} {s : State} {ea pc : Word} (h : resolve mode s = .ok (ea, s.setPc pc))
    (hpc : pc ≠ 0xFFFF#16) :
    ∃ t, runOperation (.add mode) s = .next t ∧ AddEffect (s.mem.read ea.toNat) s t ∧
      t.pc.toNat = pc.toNat + 1 ∧ t.run = s.run :=
  ⟨_, (runOperation_add_of_resolve_ok h).trans (operandAdvance_of_ne hpc),
    ((addEffect_addA _ s).setPc pc).setPc _, toNat_add_one hpc, rfl⟩

/-- Settles O45: either mode resolves to the stated address, IndexedX with PC moved once, and the sequencer's
advance follows. -/
theorem unassignedModesRunAsSpecified : Obligations.UnassignedModesRunAsSpecified := by
  unfold Obligations.UnassignedModesRunAsSpecified
  refine fun s => ⟨?_, ?_⟩
  · rintro hpc _ rfl
    have hne : s.pc ≠ 0xFFFF#16 := by bv_omega
    have hne' : s.pc + 1#16 ≠ 0xFFFF#16 := by bv_omega
    rw [← indexedAddress_toNat, show s.pc.toNat + 2 = (s.pc + 1#16).toNat + 1 by rw [toNat_add_one hne]]
    exact ⟨runOperation_lda_effect (resolve_indexedX_of_ne hne) hne',
      runOperation_add_effect (resolve_indexedX_of_ne hne) hne'⟩
  · rintro hne _ rfl
    rw [← relativeAddress_toNat]
    exact ⟨runOperation_lda_effect (pc := s.pc) (resolve_relative s) hne,
      runOperation_add_effect (pc := s.pc) (resolve_relative s) hne⟩

end Sys2Proof.Machine

/-! ## What a Step depends on (20_memory.md R32, 10_state.md sections 3 and 4) -/

namespace Sys2Proof.Machine

/-- The direct-page byte that an opcode with operand `d` reads, if its mode is Direct (R58). -/
def operandReads (o : OperandOpcode) (d : Byte) : List Word :=
  (directOffset (o.withOperand d)).toList.map directAddress

/-- A Step on an opcode with an operand reads the opcode, the operand and, in Direct mode, the byte it names. -/
theorem stepReads_of_oneOperand {s : State} {o : OperandOpcode} (hpc : s.pc ≠ 0xFFFF#16)
    (hop : classifyOpcode (s.mem.read s.pc.toNat) = .oneOperand o) :
    stepReads s = s.pc :: (s.pc + 1#16) :: operandReads o (s.mem.read (s.pc.toNat + 1)) := by
  rw [stepReads, if_neg hpc, classifyOpcode_eq_oneOperand_iff.mp hop, lookupOpcode_opcode, ← toNat_add_one hpc]
  cases o <;> rfl

/-- All that a Step can read: the opcode alone, or an opcode with an operand, its operand and what that names. -/
theorem stepReads_cases (s : State) :
    stepReads s = [s.pc] ∨
    ∃ o, s.pc ≠ 0xFFFF#16 ∧ classifyOpcode (s.mem.read s.pc.toNat) = .oneOperand o ∧
      stepReads s = s.pc :: (s.pc + 1#16) :: operandReads o (s.mem.read (s.pc.toNat + 1)) := by
  by_cases hpc : s.pc = 0xFFFF#16
  · exact .inl (by rw [stepReads, if_pos hpc])
  rcases classifyOpcode_cases (s.mem.read s.pc.toNat) with ⟨hb, -⟩ | ⟨hb, -⟩ | ⟨o, -, hop⟩ | ⟨hnone, -⟩
  · exact .inl (by rw [stepReads, hb]; exact ite_self _)
  · exact .inl (by rw [stepReads, hb]; exact ite_self _)
  · exact .inr ⟨o, hpc, hop, stepReads_of_oneOperand hpc hop⟩
  · exact .inl (by rw [stepReads, hnone, ite_self])

theorem operandReads_length_le (o : OperandOpcode) (d : Byte) : (operandReads o d).length ≤ 1 := by
  rw [operandReads]
  cases directOffset (o.withOperand d) <;> simp

/-- A Step reads at most three bytes (R32). -/
theorem stepReads_length_le (s : State) : (stepReads s).length ≤ 3 := by
  rcases stepReads_cases s with h | ⟨o, -, -, h⟩
  · simp [h]
  · have hlen := operandReads_length_le o (s.mem.read (s.pc.toNat + 1))
    rw [h, List.length_cons, List.length_cons]
    omega

/-- Every Step reads the opcode. -/
theorem pc_mem_stepReads (s : State) : s.pc ∈ stepReads s := by
  rcases stepReads_cases s with h | ⟨o, -, -, h⟩ <;> simp [h]

/-- A commit looks at no byte of memory but the one its operand names. -/
theorem commit_setMem {o : OperandOpcode} {d : Byte} {s : State} {m : Memory}
    (h : ∀ addr ∈ operandReads o d, m.read addr.toNat = s.mem.read addr.toNat) :
    commit o d (s.setMem m) = (commit o d s).setMem m := by
  cases o with
  | ldaImm | addImm => rfl
  | ldaDir | addDir =>
    have hd := h (directAddress d) (List.mem_singleton_self _)
    rw [directAddress_toNat] at hd
    simp only [commit, State.setMem_mem, hd]
    rfl

/-- Over a memory that agrees where the Step reads, the operand and the commit are the same. -/
theorem commit_operand_setMem {s : State} {o : OperandOpcode} {m : Memory} (hpc : s.pc ≠ 0xFFFF#16)
    (hop : classifyOpcode (s.mem.read s.pc.toNat) = .oneOperand o)
    (hm : ∀ addr ∈ stepReads s, m.read addr.toNat = s.mem.read addr.toNat) :
    commit o (m.read (s.pc.toNat + 1)) (s.setMem m) = (commit o (s.mem.read (s.pc.toNat + 1)) s).setMem m := by
  rw [stepReads_of_oneOperand hpc hop, List.forall_mem_cons, List.forall_mem_cons, toNat_add_one hpc] at hm
  obtain ⟨-, hoperand, hdir⟩ := hm
  rw [hoperand, commit_setMem hdir]

/-- A Step looks at no byte of memory but those it reads. -/
theorem StepResult.setMem {s t : State} (h : StepResult s t) {m : Memory}
    (hm : ∀ addr ∈ stepReads s, m.read addr.toNat = s.mem.read addr.toNat) :
    StepResult (s.setMem m) (t.setMem m) := by
  have hop' := hm s.pc (pc_mem_stepReads s)
  cases h with
  | fetchTop hpc => exact .fetchTop hpc
  | illegal hpc hop =>
    rw [← hop'] at hop ⊢
    exact .illegal hpc hop
  | halt i hpc hop => exact .halt i hpc (hop' ▸ hop)
  | operandTop o hpc hop =>
    have hres : StepResult (s.setMem m) _ := .operandTop o hpc (hop' ▸ hop)
    rwa [State.setMem_mem, State.setMem_pc, commit_operand_setMem (by simp [hpc]) hop hm] at hres
  | operand o hpc hop =>
    have hres : StepResult (s.setMem m) _ := .operand o hpc (hop' ▸ hop)
    rwa [State.setMem_mem, State.setMem_pc, commit_operand_setMem (by bv_omega) hop hm] at hres

/-- A Step does not look at X. -/
theorem StepResult.setX {s t : State} (h : StepResult s t) (x : Word) : StepResult (s.setX x) (t.setX x) := by
  cases h with
  | fetchTop hpc => exact .fetchTop hpc
  | illegal hpc hop => exact .illegal hpc hop
  | halt i hpc hop => exact .halt i hpc hop
  | operandTop o hpc hop =>
    have hres : StepResult (s.setX x) _ := .operandTop o hpc hop
    rwa [commit_setX] at hres
  | operand o hpc hop =>
    have hres : StepResult (s.setX x) _ := .operand o hpc hop
    rwa [commit_setX] at hres

/-- A commit on another CCR differs in CCR alone, and not in CCR[3:0] where the two agreed there. -/
theorem commit_setCcr (o : OperandOpcode) (d : Byte) (s : State) (ccr : Byte) :
    ∃ ccr', commit o d (s.setCcr ccr) = (commit o d s).setCcr ccr' ∧
      (ccr.extractLsb' 0 4 = s.ccr.extractLsb' 0 4 →
        ccr'.extractLsb' 0 4 = (commit o d s).ccr.extractLsb' 0 4) := by
  cases o with
  | ldaImm | ldaDir => exact ⟨_, rfl, fun h => loadFlags_extractLsb'_low h _⟩
  | addImm | addDir => exact ⟨_, rfl, fun _ => addFlags_extractLsb'_low _ _ _ _⟩

/-- A Step on another CCR differs in CCR alone, and not in CCR[3:0] where the two agreed there. -/
theorem StepResult.setCcr {s t : State} (h : StepResult s t) (ccr : Byte) :
    ∃ ccr', StepResult (s.setCcr ccr) (t.setCcr ccr') ∧
      (ccr.extractLsb' 0 4 = s.ccr.extractLsb' 0 4 → ccr'.extractLsb' 0 4 = t.ccr.extractLsb' 0 4) := by
  cases h with
  | fetchTop hpc => exact ⟨ccr, .fetchTop hpc, id⟩
  | illegal hpc hop => exact ⟨ccr, .illegal hpc hop, id⟩
  | halt i hpc hop => exact ⟨ccr, .halt i hpc hop, id⟩
  | operandTop o hpc hop =>
    obtain ⟨ccr', hcommit, hlow⟩ := commit_setCcr o (s.mem.read (s.pc.toNat + 1)) s ccr
    have hres : StepResult (s.setCcr ccr) _ := .operandTop o hpc hop
    rw [State.setCcr_mem, State.setCcr_pc, hcommit] at hres
    exact ⟨ccr', hres, hlow⟩
  | operand o hpc hop =>
    obtain ⟨ccr', hcommit, hlow⟩ := commit_setCcr o (s.mem.read (s.pc.toNat + 1)) s ccr
    have hres : StepResult (s.setCcr ccr) _ := .operand o hpc hop
    rw [State.setCcr_mem, State.setCcr_pc, hcommit] at hres
    exact ⟨ccr', hres, hlow⟩

/-- Settles O41: the result of a Step with another X is its result, with that X. -/
theorem stepIgnoresIndexRegister : Obligations.StepIgnoresIndexRegister := by
  unfold Obligations.StepIgnoresIndexRegister
  intro s t x h
  obtain ⟨hrun, hres⟩ := step_next_iff.mp h
  exact step_next_iff.mpr ⟨hrun, hres.setX x⟩

/-- Settles O42: the result of a Step with another CCR differs in CCR alone. -/
theorem stepReadsNoFlag : Obligations.StepReadsNoFlag := by
  unfold Obligations.StepReadsNoFlag
  intro s t ccr h
  obtain ⟨hrun, hres⟩ := step_next_iff.mp h
  obtain ⟨ccr', hres', -⟩ := hres.setCcr ccr
  exact ⟨t.setCcr ccr', step_next_iff.mpr ⟨hrun, hres'⟩, rfl, rfl, rfl, rfl⟩

/-- Settles O43: the result of a Step over a memory that agrees where it reads is its result, with that memory. -/
theorem stepDependsOnlyOnBytesItReads : Obligations.StepDependsOnlyOnBytesItReads := by
  unfold Obligations.StepDependsOnlyOnBytesItReads
  intro s t m h hm
  obtain ⟨hrun, hres⟩ := step_next_iff.mp h
  exact ⟨step_next_iff.mpr ⟨hrun, hres.setMem hm⟩, stepReads_length_le s⟩

/-- Two states that a program's result does not tell apart: A, CCR[3:0], PC and RUN. -/
structure SameResult (s s' : State) : Prop where
  a : s'.a = s.a
  flags : s'.ccr.extractLsb' 0 4 = s.ccr.extractLsb' 0 4
  pc : s'.pc = s.pc
  run : s'.run = s.run

/-- Two machines with the same A, CCR[3:0] and PC that find the same bytes where the Step reads end the Step alike,
whatever X, CCR[7:4] and the rest of memory are. -/
theorem StepResult.sameResult {s s' t : State} (h : StepResult s t) (hs : SameResult s s')
    (hm : ∀ addr ∈ stepReads s, s'.mem.read addr.toNat = s.mem.read addr.toNat) :
    ∃ t', StepResult s' t' ∧ SameResult t t' := by
  obtain ⟨ccr', hres, hlow⟩ := ((h.setMem hm).setX s'.x).setCcr s'.ccr
  have hs' : ((s.setMem s'.mem).setX s'.x).setCcr s'.ccr = s' :=
    State.ext_fields hs.a.symm rfl rfl hs.pc.symm rfl hs.run.symm
  rw [hs'] at hres
  exact ⟨_, hres, rfl, hlow hs.flags, rfl, rfl⟩

end Sys2Proof.Machine

/-! ## Runs (43_loop_halt.md section 3, 70_reset_and_hazards.md section 6) -/

namespace Sys2Proof.Machine

/-- A run as the spec's unbounded loop: Steps while RUN is Running (R91). -/
inductive Runs : State → State → Prop where
  | done {s : State} (h : s.run ≠ .running) : Runs s s
  | step {s u t : State} (hrun : s.run = .running) (hstep : StepResult s u) (hrest : Runs u t) : Runs s t

/-- A run ends where RUN is not Running. -/
theorem Runs.not_running {s t : State} (h : Runs s t) : t.run ≠ .running := by
  induction h with
  | done h => exact h
  | step _ _ _ ih => exact ih

/-- From a state whose RUN is not Running there is nothing to run. -/
theorem Runs.eq_of_not_running {s t : State} (h : Runs s t) (hs : s.run ≠ .running) : t = s := by
  cases h with
  | done => rfl
  | step hrun => exact absurd hrun hs

/-- A run from a running state begins with a Step. -/
theorem Runs.exists_step {s t : State} (h : Runs s t) (hs : s.run = .running) : ∃ u, StepResult s u ∧ Runs u t := by
  cases h with
  | done hne => exact absurd hs hne
  | step _ hstep hrest => exact ⟨_, hstep, hrest⟩

/-- The Step's result is the only one. -/
theorem StepResult.unique {s t t' : State} (h : StepResult s t) (h' : StepResult s t') : t = t' :=
  Host.Outcome.next.inj (h.runningStep_eq.symm.trans h'.runningStep_eq)

/-- A run has one end. -/
theorem Runs.unique {s t t' : State} (h : Runs s t) (h' : Runs s t') : t = t' := by
  induction h with
  | done hs => exact (h'.eq_of_not_running hs).symm
  | step hrun hstep _ ih =>
    obtain ⟨u, hstep', hrest'⟩ := h'.exists_step hrun
    exact ih (hstep.unique hstep' ▸ hrest')

/-- The loop with a bound takes the same first Step. -/
theorem runLoop_succ_of_stepResult {s u : State} (hrun : s.run = .running) (h : StepResult s u) (k : Nat) :
    runLoop (k + 1) s = runLoop k u :=
  runLoop_step (step_next_iff.mpr ⟨hrun, h⟩) k

/-- While a bounded loop is still Running, each of its Steps has moved PC up by 2 (R93). -/
theorem runLoop_pc_of_running {k : Nat} {s : State} (h : (runLoop k s).run = .running) :
    (runLoop k s).pc.toNat = s.pc.toNat + 2 * k := by
  induction k generalizing s with
  | zero => rfl
  | succ k ih =>
    by_cases hrun : s.run = .running
    · obtain ⟨u, hu⟩ := exists_stepResult s
      rw [runLoop_succ_of_stepResult hrun hu] at h ⊢
      by_cases hurun : u.run = .running
      · rw [ih h, hu.pc_of_running hurun]
        omega
      · exact absurd (runLoop_stopped hurun k ▸ h) hurun
    · exact absurd (runLoop_stopped hrun (k + 1) ▸ h) hrun

/-- The bound cuts no run short: a loop that is still Running after it would have moved PC past the top (R93). -/
theorem runLoop_maxRunSteps_run (s : State) : (runLoop maxRunSteps s).run ≠ .running := by
  intro h
  have hpc := runLoop_pc_of_running h
  have hlt : (runLoop maxRunSteps s).pc.toNat < 65536 := (runLoop maxRunSteps s).pc.isLt
  have hmax : maxRunSteps = 32768 := rfl
  omega

/-- A bounded loop continued is a loop of the summed bound. -/
theorem runLoop_add (n k : Nat) (s : State) : runLoop (n + k) s = runLoop k (runLoop n s) := by
  induction n generalizing s with
  | zero => rw [Nat.zero_add]; rfl
  | succ n ih =>
    by_cases hrun : s.run = .running
    · obtain ⟨u, hu⟩ := exists_stepResult s
      rw [Nat.add_right_comm, runLoop_succ_of_stepResult hrun hu, runLoop_succ_of_stepResult hrun hu, ih]
    · rw [runLoop_stopped hrun, runLoop_stopped hrun, runLoop_stopped hrun]

/-- A bounded loop that has stopped is a run. -/
theorem runs_runLoop {k : Nat} {s : State} (h : (runLoop k s).run ≠ .running) : Runs s (runLoop k s) := by
  induction k generalizing s with
  | zero => exact .done h
  | succ k ih =>
    by_cases hrun : s.run = .running
    · obtain ⟨u, hu⟩ := exists_stepResult s
      rw [runLoop_succ_of_stepResult hrun hu] at h ⊢
      exact .step hrun hu (ih h)
    · rw [runLoop_stopped hrun]
      exact .done hrun

theorem whenIdle_of_idle {s : State} (h : s.run = .idle) (op : Host.Outcome State Fault Refusal) :
    whenIdle s op = op := by
  rw [whenIdle, h]

theorem whenIdle_of_not_idle {s : State} (h : s.run ≠ .idle) (op : Host.Outcome State Fault Refusal) :
    whenIdle s op = .refused .hostNotIdle := by
  cases hrun : s.run with
  | idle => exact absurd hrun h
  | running | faulted => rw [whenIdle, hrun]

theorem hostRun_of_idle {s : State} (h : s.run = .idle) :
    hostRun s = .next (runLoop maxRunSteps (s.setRun .running)) := by
  rw [hostRun, startRun, whenIdle_of_idle h]

theorem hostRun_of_not_idle {s : State} (h : s.run ≠ .idle) : hostRun s = .refused .hostNotIdle := by
  rw [hostRun, startRun, whenIdle_of_not_idle h]

/-- The host's Run answers the end of the unbounded run (R119; log 14). -/
theorem hostRun_next_iff {s t : State} : hostRun s = .next t ↔ s.run = .idle ∧ Runs (s.setRun .running) t := by
  have hruns := runs_runLoop (runLoop_maxRunSteps_run (s.setRun .running))
  by_cases hidle : s.run = .idle
  · rw [hostRun_of_idle hidle, Host.Outcome.next.injEq]
    exact ⟨fun h => ⟨hidle, h ▸ hruns⟩, fun ⟨_, h⟩ => hruns.unique h⟩
  · simp [hostRun_of_not_idle hidle, hidle]

/-- The host's Run returns from every idle state. -/
theorem exists_hostRun {s : State} (h : s.run = .idle) : ∃ t, hostRun s = .next t :=
  ⟨_, hostRun_next_iff.mpr ⟨h, runs_runLoop (runLoop_maxRunSteps_run _)⟩⟩

/-- Settles O46: a Step that continues moves PC by 2, so 32,768 of them do not fit below 65,536, and a stopped loop
stays. -/
theorem everyRunEndsWithinBound : Obligations.EveryRunEndsWithinBound := by
  unfold Obligations.EveryRunEndsWithinBound
  refine ⟨fun s _ => runLoop_maxRunSteps_run s, fun s k => ?_, fun s h => ?_⟩
  · rw [runLoop_add]
    exact runLoop_stopped (runLoop_maxRunSteps_run s) k
  · obtain ⟨t, ht⟩ := exists_hostRun h
    exact ⟨t, ht, (hostRun_next_iff.mp ht).2.not_running⟩

/-- What every Step of a running machine keeps, a run keeps. -/
theorem Runs.keeps {P : State → Prop} (hstep : ∀ {s t}, s.run = .running → P s → StepResult s t → P t) {s t : State}
    (h : Runs s t) (hs : P s) : P t := by
  induction h with
  | done => exact hs
  | step hrun hres _ ih => exact ih (hstep hrun hs hres)

/-- A run keeps memory, X and CCR[7:4]. -/
theorem Runs.frame {s t : State} (h : Runs s t) :
    t.mem = s.mem ∧ t.x = s.x ∧ t.ccr.extractLsb' 4 4 = s.ccr.extractLsb' 4 4 := by
  refine h.keeps (P := fun u => u.mem = s.mem ∧ u.x = s.x ∧ u.ccr.extractLsb' 4 4 = s.ccr.extractLsb' 4 4) ?_
    ⟨rfl, rfl, rfl⟩
  rintro u v - ⟨hmem, hx, hccr⟩ hres
  obtain ⟨hmem', hx', hccr'⟩ := hres.frame
  exact ⟨hmem'.trans hmem, hx'.trans hx, hccr'.trans hccr⟩

/-- A run does not decrease PC. -/
theorem Runs.pc_le {s t : State} (h : Runs s t) : s.pc.toNat ≤ t.pc.toNat :=
  h.keeps (P := fun u => s.pc.toNat ≤ u.pc.toNat) (fun _ hle hres => hle.trans hres.pc_le) le_rfl

/-- Settles O47: every Step keeps the three, the first one moves PC up and no other moves it down; at the top the
first one is the only one. -/
theorem runPreservesMemoryAndMovesPcUp : Obligations.RunPreservesMemoryAndMovesPcUp := by
  unfold Obligations.RunPreservesMemoryAndMovesPcUp
  intro s t h
  obtain ⟨-, hruns⟩ := hostRun_next_iff.mp h
  obtain ⟨hmem, hx, hccr⟩ := hruns.frame
  obtain ⟨u, hstep, hrest⟩ := hruns.exists_step rfl
  refine ⟨hmem, hx, hccr, fun hpc => (hstep.pc_lt hpc).trans_le hrest.pc_le, fun hpc => ?_⟩
  obtain rfl := hstep.of_top hpc
  obtain rfl := hrest.eq_of_not_running (by simp)
  exact ⟨hpc, rfl⟩

/-- A run that ends normally ends on a HALT, one below PC (R96). -/
theorem Runs.idle_end {s t : State} (h : Runs s t) (hs : s.run = .running) (ht : t.run = .idle) :
    t.pc.toNat ≠ 0 ∧ t.mem.read (t.pc.toNat - 1) ∈ Config.haltOpcodes := by
  induction h with
  | done hne => exact absurd hs hne
  | @step s u t _ hres hrest ih =>
    by_cases hu : u.run = .running
    · exact ih hu ht
    · obtain rfl := hrest.eq_of_not_running hu
      obtain ⟨hop, hpc⟩ := (hres.idle_iff hs).mp ht
      obtain rfl := hres.of_idle hs ht
      rw [State.setRun_pc, State.setPc_pc, toNat_add_one hpc]
      exact ⟨Nat.succ_ne_zero _, hop⟩

/-- Settles O49: the last Step of a run that ends with RUN Idle is a HALT's. -/
theorem normalEndIsOnePastAHalt : Obligations.NormalEndIsOnePastAHalt := by
  unfold Obligations.NormalEndIsOnePastAHalt
  rintro s t ⟨h, ht⟩
  exact (hostRun_next_iff.mp h).2.idle_end rfl ht

/-- Two runs that find the same bytes at every Step end alike: `I` relates the running states they pass, with all
that the Steps read. -/
theorem Runs.sameResult {I : State → State → Prop}
    (hreads : ∀ {s s'}, I s s' → ∀ addr ∈ stepReads s, s'.mem.read addr.toNat = s.mem.read addr.toNat)
    (hkeep : ∀ {s s' u u'}, I s s' → StepResult s u → StepResult s' u' → u.run = .running → I u u')
    {s s' t : State} (h : Runs s t) (hs : SameResult s s') (hI : s.run = .running → I s s') :
    ∃ t', Runs s' t' ∧ SameResult t t' := by
  induction h generalizing s' with
  | done hrun => exact ⟨s', .done (hs.run ▸ hrun), hs⟩
  | step hrun hstep _ ih =>
    obtain ⟨u', hstep', hu⟩ := hstep.sameResult hs (hreads (hI hrun))
    obtain ⟨t', hruns', ht⟩ := ih hu (hkeep (hI hrun) hstep hstep')
    exact ⟨t', .step (hs.run.trans hrun) hstep' hruns', ht⟩

/-- A Step reads nothing below PC but the direct page. -/
theorem stepReads_range {s : State} {addr : Word} (h : addr ∈ stepReads s) :
    s.pc.toNat ≤ addr.toNat ∨ addr.toNat < 256 := by
  rcases stepReads_cases s with hreads | ⟨o, hpc, -, hreads⟩
  · rw [hreads, List.mem_singleton] at h
    exact .inl (h ▸ le_rfl)
  · rw [hreads, List.mem_cons, List.mem_cons, operandReads, List.mem_map] at h
    rcases h with rfl | rfl | ⟨dd, -, rfl⟩
    · exact .inl le_rfl
    · rw [toNat_add_one hpc]
      exact .inl (Nat.le_succ _)
    · exact .inr (directAddress_toNat_lt dd)

/-- PC is at or above `lo`, and the memories agree from `lo` up and in the direct page. -/
def AgreeFrom (lo : Nat) (s s' : State) : Prop :=
  lo ≤ s.pc.toNat ∧ ∀ addr, lo ≤ addr ∨ addr < 256 → s'.mem.read addr = s.mem.read addr

theorem AgreeFrom.reads {lo : Nat} {s s' : State} (h : AgreeFrom lo s s') :
    ∀ addr ∈ stepReads s, s'.mem.read addr.toNat = s.mem.read addr.toNat := by
  obtain ⟨hlo, hm⟩ := h
  exact fun addr hmem => hm addr.toNat ((stepReads_range hmem).imp_left hlo.trans)

theorem AgreeFrom.step {lo : Nat} {s s' u u' : State} (h : AgreeFrom lo s s') (hu : StepResult s u)
    (hu' : StepResult s' u') : AgreeFrom lo u u' := by
  obtain ⟨hlo, hm⟩ := h
  obtain ⟨hmem, -⟩ := hu.frame
  obtain ⟨hmem', -⟩ := hu'.frame
  exact ⟨hlo.trans hu.pc_le, fun addr ha => by rw [hmem, hmem', hm addr ha]⟩

/-- Settles O48: PC does not decrease, so every Step reads at or above the start PC or in the direct page; CCR[7:4]
is kept by both runs. -/
theorem runDependsOnlyOnCodeAndDirectPage : Obligations.RunDependsOnlyOnCodeAndDirectPage := by
  unfold Obligations.RunDependsOnlyOnCodeAndDirectPage
  intro s s' t h hidle ha hccr hpc hm
  obtain ⟨-, hruns⟩ := hostRun_next_iff.mp h
  have hs : SameResult (s.setRun .running) (s'.setRun .running) := ⟨ha, congrArg _ hccr, hpc, rfl⟩
  obtain ⟨t', hruns', ht⟩ := hruns.sameResult (I := AgreeFrom s.pc.toNat) AgreeFrom.reads
    (fun hI hu hu' _ => hI.step hu hu') hs (fun _ => ⟨le_rfl, hm⟩)
  obtain ⟨-, -, hhigh⟩ := hruns.frame
  obtain ⟨-, -, hhigh'⟩ := hruns'.frame
  have htccr : t'.ccr = t.ccr := eq_of_extractLsb'_halves ht.flags
    (hhigh'.trans ((congrArg (·.extractLsb' 4 4) hccr).trans hhigh.symm))
  exact ⟨t', hostRun_next_iff.mpr ⟨hidle, hruns'⟩, ht.a, htccr, ht.pc, ht.run⟩

end Sys2Proof.Machine

/-! ## The host's operations (70_reset_and_hazards.md sections 1 and 6, 10_state.md section 8) -/

namespace Sys2Proof.Machine

/-- The state that the spec's `reset()` makes of `s` (R23). -/
def resetOf (s : State) : State := (((s.setA 0x00#8).setX s.x).setCcr 0x00#8).setPc Config.origin

theorem hostReset_of_idle {s : State} (h : s.run = .idle) : hostReset s = .next (resetOf s) := by
  rw [hostReset, whenIdle_of_idle h]; rfl

theorem hostReset_next_iff {s t : State} : hostReset s = .next t ↔ s.run = .idle ∧ t = resetOf s := by
  constructor
  · intro h
    obtain ⟨hidle, -⟩ := whenIdle_next h
    exact ⟨hidle, Host.Outcome.next.inj (h.symm.trans (hostReset_of_idle hidle))⟩
  · rintro ⟨hidle, rfl⟩
    exact hostReset_of_idle hidle

/-- Reset does not tell apart states of the same X, memory and RUN. -/
theorem resetOf_congr {s t : State} (hx : s.x = t.x) (hmem : s.mem = t.mem) (hrun : s.run = t.run) :
    resetOf s = resetOf t :=
  State.ext_fields rfl hx rfl rfl hmem hrun

/-- Settles O52: the equation of Reset, whose result it leaves as it is. -/
theorem resetClearsAndIsIdempotent : Obligations.ResetClearsAndIsIdempotent := by
  unfold Obligations.ResetClearsAndIsIdempotent
  refine ⟨fun s h => ⟨resetOf s, hostReset_of_idle h, rfl, rfl, rfl, rfl, rfl, h, ?_⟩,
    hostReset_of_idle (s := State.construct) rfl⟩
  exact hostReset_next_iff.mpr ⟨h, resetOf_congr rfl rfl rfl⟩

/-- Settles O50: a run keeps X and memory, and a normal end is Idle again, so that Reset cannot tell the end from the
start. -/
theorem resetAfterNormalEndRestoresLaunch : Obligations.ResetAfterNormalEndRestoresLaunch := by
  unfold Obligations.ResetAfterNormalEndRestoresLaunch
  rintro s₀ s t hreset ⟨hrun, ht⟩
  obtain ⟨hidle, rfl⟩ := hostReset_next_iff.mp hreset
  obtain ⟨hmem, hx, -⟩ := (hostRun_next_iff.mp hrun).2.frame
  have hagain : hostReset t = .next (resetOf s₀) :=
    hostReset_next_iff.mpr ⟨ht, resetOf_congr hx.symm hmem.symm (hidle.trans ht.symm)⟩
  refine ⟨hagain, fun u hu => ?_⟩
  obtain rfl := Host.Outcome.next.inj (hagain.symm.trans hu)
  exact ⟨hrun, ht⟩

/-- Settles O51: construction's fields, and the one Step of a run over never-written memory. -/
theorem constructZeroesAndRunHaltsAtOnce : Obligations.ConstructZeroesAndRunHaltsAtOnce := by
  unfold Obligations.ConstructZeroesAndRunHaltsAtOnce
  refine ⟨fun _ => ⟨State.construct, rfl, rfl, rfl, rfl, rfl, rfl, fun _ => rfl⟩, ?_⟩
  have hstep : StepResult (State.construct.setRun .running) _ := .halt .halt (by decide) rfl
  have hruns := Runs.step rfl hstep (.done (by simp))
  exact ⟨_, ⟨hostRun_next_iff.mpr ⟨rfl, hruns⟩, rfl⟩, rfl, rfl, rfl⟩

/-- Load's writes, where the bytes fit, are a placing. -/
theorem loadBytes_eq_placeBytes {program : List Byte} {addr : Word} (m : Memory)
    (hfit : addr.toNat + program.length ≤ Config.memExtent) :
    loadBytes program addr m = .ok (placeBytes program addr.toNat m) := by
  induction program generalizing addr m with
  | nil => rfl
  | cons b rest ih =>
    rw [loadBytes, memWrite_eq, placeBytes, if_pos (addr_lt_memExtent addr)]
    cases rest with
    | nil => rfl
    | cons b' rest' =>
      simp only [List.length_cons, Config.memExtent] at hfit
      have hnext : (addr + 1#16).toNat = addr.toNat + 1 := by bv_omega
      rw [← hnext]
      exact ih _ (by simp only [List.length_cons, Config.memExtent]; omega)

/-- A loadable program fits between the origin and the top of memory. -/
theorem loadable_iff {program : List Byte} : loadable program = true ↔ program.length ≤ 0x2000 := by
  rw [loadable, decide_eq_true_eq]
  exact Iff.rfl

/-- The memory after a Load. -/
def loadedMemory (program : List Byte) (m : Memory) : Memory := placeBytes program Config.origin.toNat m

theorem loadedMemory_wf {m : Memory} (h : m.wf = true) (program : List Byte) : (loadedMemory program m).wf = true :=
  placeBytes_wf h

theorem loadedMemory_holds {program : List Byte} {m : Memory} (h : m.wf = true) (hlen : program.length ≤ 0x2000) :
    (loadedMemory program m).Holds Config.origin.toNat program :=
  placeBytes_holds h (show 0xE000 + program.length ≤ 65536 by omega)

theorem loadedMemory_read_outside {program : List Byte} {m : Memory} (h : m.wf = true) {addr : Nat}
    (ha : addr < 0xE000 ∨ 0xE000 + program.length ≤ addr) : (loadedMemory program m).read addr = m.read addr :=
  placeBytes_read_outside h ha

/-- Loading twice writes what is there already. -/
theorem loadedMemory_idem {program : List Byte} {m : Memory} (h : m.wf = true) (hlen : program.length ≤ 0x2000) :
    loadedMemory program (loadedMemory program m) = loadedMemory program m := by
  have hwf := loadedMemory_wf h program
  refine Memory.wf_ext (loadedMemory_wf hwf program) hwf fun addr => ?_
  by_cases ha : addr < 0xE000 ∨ 0xE000 + program.length ≤ addr
  · exact loadedMemory_read_outside hwf ha
  · have hk : addr - 0xE000 < program.length := by omega
    have hread {m : Memory} (hm : m.Holds Config.origin.toNat program) : m.read addr = program[addr - 0xE000] := by
      rw [← hm _ hk, show Config.origin.toNat = 0xE000 from rfl, Nat.add_sub_cancel' (by omega)]
    rw [hread (loadedMemory_holds hwf hlen), hread (loadedMemory_holds h hlen)]

theorem hostLoad_of_loadable {program : List Byte} {s : State} (h : s.run = .idle) (hlen : program.length ≤ 0x2000) :
    hostLoad program s = .next ((s.setMem (loadedMemory program s.mem)).setPc Config.origin) := by
  have hfit : Config.origin.toNat + program.length ≤ Config.memExtent := show 0xE000 + program.length ≤ 65536 by omega
  rw [hostLoad, whenIdle_of_idle h, if_pos (loadable_iff.mpr hlen), loadBytes_eq_placeBytes _ hfit]
  rfl

theorem hostLoad_of_not_loadable {program : List Byte} {s : State} (h : s.run = .idle)
    (hlen : 0x2000 < program.length) : hostLoad program s = .refused .loadTooLong := by
  rw [hostLoad, whenIdle_of_idle h, if_neg (by rw [loadable_iff]; omega)]

/-- Where Load answers, it was idle, the program fits, and the answer is the loaded state. -/
theorem hostLoad_next_iff {program : List Byte} {s t : State} :
    hostLoad program s = .next t ↔ s.run = .idle ∧ program.length ≤ 0x2000 ∧
      t = (s.setMem (loadedMemory program s.mem)).setPc Config.origin := by
  constructor
  · intro h
    obtain ⟨hidle, -⟩ := whenIdle_next h
    by_cases hlen : program.length ≤ 0x2000
    · exact ⟨hidle, hlen, Host.Outcome.next.inj (h.symm.trans (hostLoad_of_loadable hidle hlen))⟩
    · rw [hostLoad_of_not_loadable hidle (Nat.lt_of_not_le hlen)] at h
      cases h
  · rintro ⟨hidle, hlen, rfl⟩
    exact hostLoad_of_loadable hidle hlen

/-- Settles O53: Load's equation, what the loaded memory reads as, and the refusal. -/
theorem loadWritesExactlyTheProgram : Obligations.LoadWritesExactlyTheProgram := by
  unfold Obligations.LoadWritesExactlyTheProgram
  refine fun program s hidle hwf => ⟨fun hlen => ?_, hostLoad_of_not_loadable hidle⟩
  exact ⟨_, hostLoad_of_loadable hidle hlen, loadedMemory_holds hwf hlen,
    fun addr ha => loadedMemory_read_outside hwf ha, rfl, rfl, rfl, rfl, hidle⟩

/-- Settles O54: a second Load writes what is there already, and Load and Reset write different fields but for PC,
which both set to the origin. -/
theorem loadIsIdempotentAndCommutesWithReset : Obligations.LoadIsIdempotentAndCommutesWithReset := by
  unfold Obligations.LoadIsIdempotentAndCommutesWithReset
  intro program s t hwf h
  obtain ⟨hidle, hlen, rfl⟩ := hostLoad_next_iff.mp h
  refine ⟨hostLoad_next_iff.mpr ⟨hidle, hlen, ?_⟩, _, _, _, hostReset_of_idle hidle, hostReset_of_idle hidle,
    hostLoad_of_loadable hidle hlen, rfl⟩
  exact State.ext_fields rfl rfl rfl rfl (loadedMemory_idem hwf hlen).symm rfl

theorem hostPoke_of_idle {s : State} (h : s.run = .idle) (addr : Word) (v : Byte) :
    hostPoke addr v s = .next (s.setMem (s.mem.write addr.toNat v)) := by
  rw [hostPoke, whenIdle_of_idle h, memWrite_eq]

theorem hostSetReg_of_idle {s : State} (h : s.run = .idle) (w : RegWrite) : hostSetReg w s = .next (w.apply s) := by
  rw [hostSetReg, whenIdle_of_idle h]

/-- Settles O55: Poke's write is read back alone, and SetReg's equation for each register. -/
theorem pokeAndSetRegWriteOnePlace : Obligations.PokeAndSetRegWriteOnePlace := by
  unfold Obligations.PokeAndSetRegWriteOnePlace
  intro s hidle hwf
  refine ⟨fun addr b => ⟨_, hostPoke_of_idle hidle addr b, ?_, fun addr' hne => ?_, rfl, rfl, rfl, rfl, rfl⟩,
    fun v => hostSetReg_of_idle hidle (.a v), fun v => hostSetReg_of_idle hidle (.x v),
    fun v => hostSetReg_of_idle hidle (.ccr v), fun v => hostSetReg_of_idle hidle (.pc v)⟩
  · exact (Memory.read_write hwf _ _ _).trans (if_pos rfl)
  · exact (Memory.read_write hwf _ _ _).trans (if_neg hne.symm)

/-- No operation but Construct acts when RUN is not Idle (R114). -/
theorem perform_of_not_idle {s : State} (h : s.run ≠ .idle) {op : HostOp} (hop : op ≠ .construct) :
    op.perform s = .refused .hostNotIdle := by
  cases op with
  | construct => exact absurd rfl hop
  | reset | load | poke | setReg => exact whenIdle_of_not_idle h _
  | run => exact hostRun_of_not_idle h

/-- Settles O56: every operation but Construct asks for RUN Idle, Observe for RUN not Running; each pair of the list
is a flag and its mask. -/
theorem hostActsOnlyWhenIdle : Obligations.HostActsOnlyWhenIdle := by
  unfold Obligations.HostActsOnlyWhenIdle
  intro s
  refine ⟨fun h op hop => perform_of_not_idle h hop, rfl, fun p => by simp [hostObserve], fun h f mask hmem => ?_⟩
  have masks : ∀ pair ∈ [(Flag.c, 0x01#8), (.v, 0x02#8), (.z, 0x04#8), (.n, 0x08#8), (.i, 0x10#8), (.h, 0x20#8),
      (.x, 0x40#8), (.s, 0x80#8)], pair.1.mask = pair.2 := by decide
  obtain rfl : f.mask = mask := masks (f, mask) hmem
  rw [hostObserve, if_neg h, Probe.reading, flagSet]

/-- A run keeps the invariant, as its Steps do. -/
theorem Runs.inv {s t : State} (h : Runs s t) (hs : s.inv = true) : t.inv = true :=
  h.keeps (P := fun u => u.inv = true) (fun hrun hinv hres => step_inv hinv (step_next_iff.mpr ⟨hrun, hres⟩)) hs

/-- An idle state of canonical memory has the invariant. -/
theorem State.inv_of_idle {s : State} (hwf : s.mem.wf = true) (h : s.run = .idle) : s.inv = true :=
  s.inv_iff.mpr ⟨hwf, State.latchOk_of_not_faulted (.inl h)⟩

/-- SetReg writes neither memory nor RUN. -/
theorem RegWrite.apply_mem_run (w : RegWrite) (s : State) : (w.apply s).mem = s.mem ∧ (w.apply s).run = s.run := by
  cases w <;> exact ⟨rfl, rfl⟩

/-- Settles O59: the writing operations leave an idle state of canonical memory, and a run keeps the invariant from
the state that starts it. -/
theorem hostOperationsKeepInvariant : Obligations.HostOperationsKeepInvariant := by
  unfold Obligations.HostOperationsKeepInvariant
  intro op s t hs h
  obtain ⟨hwf, -⟩ := s.inv_iff.mp hs
  cases op with
  | construct => cases h; rfl
  | reset =>
    obtain ⟨hidle, rfl⟩ := hostReset_next_iff.mp h
    exact State.inv_of_idle hwf hidle
  | load program =>
    obtain ⟨hidle, -, rfl⟩ := hostLoad_next_iff.mp h
    exact State.inv_of_idle (loadedMemory_wf hwf program) hidle
  | poke addr v =>
    obtain ⟨hidle, -⟩ := whenIdle_next h
    obtain rfl := Host.Outcome.next.inj ((hostPoke_of_idle hidle addr v).symm.trans h)
    exact State.inv_of_idle (Memory.wf_write hwf (addr_lt_memExtent addr) v) hidle
  | setReg w =>
    obtain ⟨hidle, -⟩ := whenIdle_next h
    obtain rfl := Host.Outcome.next.inj ((hostSetReg_of_idle hidle w).symm.trans h)
    obtain ⟨hmem, hrun⟩ := w.apply_mem_run s
    exact State.inv_of_idle (hmem ▸ hwf) (hrun.trans hidle)
  | run =>
    obtain ⟨hidle, hruns⟩ := hostRun_next_iff.mp h
    exact hruns.inv ((s.setRun .running).inv_iff.mpr ⟨hwf, State.latchOk_of_not_faulted (.inr rfl)⟩)

end Sys2Proof.Machine

/-! ## Launch premises (70_reset_and_hazards.md sections 2 and 6) -/

namespace Sys2Proof.Machine

/-- Two memories hold one program at `addr` that ends within its own bytes, and agree on every direct-page byte it
reads. -/
def SameProgram (addr : Nat) (m m' : Memory) : Prop :=
  ∃ program, endsWithin program = true ∧ m.Holds addr program ∧ m'.Holds addr program ∧
    ∀ dd ∈ directOffsets program, m'.read dd.toNat = m.read dd.toNat

/-- A program that ends within its own bytes has a first byte. -/
theorem exists_cons_of_endsWithin {program : List Byte} (h : endsWithin program = true) :
    ∃ opcode rest, program = opcode :: rest := by
  cases program with
  | nil => cases h
  | cons opcode rest => exact ⟨opcode, rest, rfl⟩

theorem SameProgram.read_opcode {addr : Nat} {m m' : Memory} (h : SameProgram addr m m') :
    m'.read addr = m.read addr := by
  obtain ⟨program, hends, hholds, hholds', -⟩ := h
  obtain ⟨opcode, rest, rfl⟩ := exists_cons_of_endsWithin hends
  exact (Memory.holds_cons.mp hholds').1.trans (Memory.holds_cons.mp hholds).1.symm

/-- At an opcode with an operand both memories hold the operand, agree on the byte it names, and hold the same program
after it. -/
theorem SameProgram.oneOperand {addr : Nat} {m m' : Memory} {o : OperandOpcode} (h : SameProgram addr m m')
    (hop : classifyOpcode (m.read addr) = .oneOperand o) :
    m'.read (addr + 1) = m.read (addr + 1) ∧
      (∀ dd ∈ directOffset (o.withOperand (m.read (addr + 1))), m'.read dd.toNat = m.read dd.toNat) ∧
      SameProgram (addr + 2) m m' := by
  obtain ⟨program, hends, hholds, hholds', hdir⟩ := h
  obtain ⟨opcode, tail, rfl⟩ := exists_cons_of_endsWithin hends
  obtain ⟨rfl, htail⟩ := Memory.holds_cons.mp hholds
  obtain ⟨-, htail'⟩ := Memory.holds_cons.mp hholds'
  obtain ⟨d, rest, rfl, hends'⟩ := endsWithin_oneOperand hop hends
  obtain ⟨rfl, hrest⟩ := Memory.holds_cons.mp htail
  obtain ⟨hd, hrest'⟩ := Memory.holds_cons.mp htail'
  rw [directOffsets_oneOperand hop, List.forall_mem_append] at hdir
  obtain ⟨hown, hlater⟩ := hdir
  exact ⟨hd, fun dd hdd => hown dd (Option.mem_toList.mpr hdd), rest, hends', hrest, hrest', hlater⟩

/-- Over memories of the same program at PC, the next Step finds the same bytes wherever it reads. -/
theorem SameProgram.reads {s s' : State} (h : SameProgram s.pc.toNat s.mem s'.mem) :
    ∀ addr ∈ stepReads s, s'.mem.read addr.toNat = s.mem.read addr.toNat := by
  rcases stepReads_cases s with hreads | ⟨o, hpc, hop, hreads⟩
  · rw [hreads, List.forall_mem_singleton]
    exact h.read_opcode
  · obtain ⟨hoperand, hdir, -⟩ := h.oneOperand hop
    rw [hreads, List.forall_mem_cons, List.forall_mem_cons, toNat_add_one hpc]
    refine ⟨h.read_opcode, hoperand, fun addr haddr => ?_⟩
    obtain ⟨dd, hdd, rfl⟩ := List.mem_map.mp haddr
    rw [directAddress_toNat]
    exact hdir dd (Option.mem_toList.mp hdd)

/-- After Steps that continue, the memories hold the rest of the program at PC. -/
theorem SameProgram.step {s s' u u' : State} (h : SameProgram s.pc.toNat s.mem s'.mem) (hu : StepResult s u)
    (hu' : StepResult s' u') (hrun : u.run = .running) : SameProgram u.pc.toNat u.mem u'.mem := by
  obtain ⟨o, -, hop, -⟩ := hu.of_running hrun
  obtain ⟨-, -, hrest⟩ := h.oneOperand hop
  obtain ⟨hmem, -⟩ := hu.frame
  obtain ⟨hmem', -⟩ := hu'.frame
  rwa [hu.pc_of_running hrun, hmem, hmem']

/-- A direct-page byte that the program reads has the same value in all launch states of the premises. -/
theorem Launch.read_directOffset {p : LaunchPremises} {s s' : State} (h : Launch p s) (h' : Launch p s') :
    ∀ dd ∈ directOffsets p.program, s'.mem.read dd.toNat = s.mem.read dd.toNat := by
  intro dd hdd
  have hstated := List.all_eq_true.mp h.everyReadStated dd hdd
  obtain ⟨cell, hcell, rfl⟩ := List.mem_map.mp (List.contains_iff_mem.mp hstated)
  rw [← directAddress_toNat, h.directPage cell hcell, h'.directPage cell hcell]

/-- Launch states of the same premises hold the same program at PC. -/
theorem Launch.sameProgram {p : LaunchPremises} {s s' : State} (h : Launch p s) (h' : Launch p s')
    (hends : endsWithin p.program = true) : SameProgram s.pc.toNat s.mem s'.mem := by
  refine ⟨p.program, hends, ?_, ?_, h.read_directOffset h'⟩
  · exact h.atOrigin ▸ h.loaded
  · exact h.atOrigin ▸ h'.loaded

/-- What is stated is equal in both launch states, and what is not is taken equal. -/
theorem Launch.sameResult {p : LaunchPremises} {s s' : State} (h : Launch p s) (h' : Launch p s')
    (ha : p.a = none → s'.a = s.a) (hccr : p.ccr = none → s'.ccr.extractLsb' 0 4 = s.ccr.extractLsb' 0 4) :
    SameResult (s.setRun .running) (s'.setRun .running) where
  a := by
    cases hpa : p.a with
    | none => exact ha hpa
    | some v => exact (h'.acc v hpa).trans (h.acc v hpa).symm
  flags := by
    cases hpccr : p.ccr with
    | none => exact hccr hpccr
    | some v => exact congrArg (·.extractLsb' 0 4) ((h'.ccr v hpccr).trans (h.ccr v hpccr).symm)
  pc := h'.atOrigin.trans h.atOrigin.symm
  run := rfl

/-- The pokes of the direct page leave each stated byte at its place, and every other cell. -/
theorem performAll_pokes {cells : List (Byte × Byte)} {s : State} (hidle : s.run = .idle) (hwf : s.mem.wf = true)
    (hnodup : (cells.map Prod.fst).Nodup) :
    ∃ m, HostOp.performAll (cells.map fun cell => .poke (directAddress cell.1) cell.2) s = .next (s.setMem m) ∧
      (∀ cell ∈ cells, m.read cell.1.toNat = cell.2) ∧
      ∀ addr, (∀ cell ∈ cells, cell.1.toNat ≠ addr) → m.read addr = s.mem.read addr := by
  induction cells generalizing s with
  | nil => exact ⟨s.mem, rfl, nofun, fun _ _ => rfl⟩
  | cons cell rest ih =>
    rw [List.map_cons, List.nodup_cons] at hnodup
    obtain ⟨hfresh, hnodup'⟩ := hnodup
    have hpoke : (HostOp.poke (directAddress cell.1) cell.2).perform s =
        .next (s.setMem (s.mem.write cell.1.toNat cell.2)) := by
      rw [← directAddress_toNat]
      exact hostPoke_of_idle hidle _ _
    have hcell : cell.1.toNat < Config.memExtent := directAddress_toNat cell.1 ▸ addr_lt_memExtent _
    obtain ⟨m, hm, hcells, hother⟩ :=
      ih (s := s.setMem (s.mem.write cell.1.toNat cell.2)) hidle (Memory.wf_write hwf hcell cell.2) hnodup'
    have hwrite := Memory.read_write hwf cell.1.toNat cell.2
    refine ⟨m, (performAll_cons hpoke _).trans hm, ?_, fun addr haddr => ?_⟩
    · rw [List.forall_mem_cons]
      refine ⟨?_, hcells⟩
      have hrest : ∀ c ∈ rest, c.1.toNat ≠ cell.1.toNat := fun c hc heq =>
        hfresh (BitVec.eq_of_toNat_eq heq ▸ List.mem_map_of_mem hc)
      rw [hother _ hrest, State.setMem_mem, hwrite, if_pos rfl]
    · obtain ⟨hne, hrest⟩ := List.forall_mem_cons.mp haddr
      rw [hother addr hrest, State.setMem_mem, hwrite, if_neg hne]

/-- SetReg of A where the premises state it. -/
theorem performAll_setA (v : Option Byte) {s : State} (hidle : s.run = .idle) :
    HostOp.performAll (v.toList.map fun v => .setReg (.a v)) s = .next (s.setA (v.getD s.a)) := by
  cases v with
  | none => rfl
  | some v => exact performAll_cons (op := .setReg (.a v)) (hostSetReg_of_idle hidle _) []

/-- SetReg of CCR where the premises state it. -/
theorem performAll_setCcr (v : Option Byte) {s : State} (hidle : s.run = .idle) :
    HostOp.performAll (v.toList.map fun v => .setReg (.ccr v)) s = .next (s.setCcr (v.getD s.ccr)) := by
  cases v with
  | none => rfl
  | some v => exact performAll_cons (op := .setReg (.ccr v)) (hostSetReg_of_idle hidle _) []

/-- The preparation makes a launch state: Load writes the program, the pokes lie below it, and SetReg writes no
memory. -/
theorem exists_launch_of_preparation {p : LaunchPremises} (s₀ : State) (hload : loadable p.program = true)
    (hstated : p.stateEveryRead = true) (hnodup : (p.directPage.map Prod.fst).Nodup) :
    ∃ s, HostOp.performAll p.preparation s₀ = .next s ∧ Launch p s := by
  have hlen := loadable_iff.mp hload
  have hwf : (loadedMemory p.program State.construct.mem).wf = true := loadedMemory_wf rfl p.program
  have hloaded : HostOp.performAll [.construct, .load p.program] s₀ =
      .next ((State.construct.setMem (loadedMemory p.program State.construct.mem)).setPc Config.origin) :=
    performAll_cons (op := .load p.program) (hostLoad_of_loadable (s := State.construct) rfl hlen) []
  obtain ⟨m, hpokes, hcells, hother⟩ := performAll_pokes
    (s := (State.construct.setMem (loadedMemory p.program State.construct.mem)).setPc Config.origin) rfl hwf hnodup
  refine ⟨_, by rw [LaunchPremises.preparation, List.append_assoc, List.append_assoc, performAll_append hloaded,
    performAll_append hpokes, performAll_append (performAll_setA p.a rfl), performAll_setCcr p.ccr rfl], ?_⟩
  refine ⟨rfl, fun k hk => ?_, rfl, hstated, fun cell hcell => ?_, fun v hv => ?_, fun v hv => ?_⟩
  · have habove : ∀ cell ∈ p.directPage, cell.1.toNat ≠ Config.origin.toNat + k := fun cell _ => by
      have hbelow : cell.1.toNat < 256 := cell.1.isLt
      have horigin : Config.origin.toNat = 0xE000 := rfl
      omega
    exact (hother _ habove).trans (loadedMemory_holds rfl hlen k hk)
  · rw [directAddress_toNat]
    exact hcells cell hcell
  · simp [hv]
  · simp [hv]

/-- Settles O60: launch states hold one program at PC and agree on all it reads, so that their runs end alike;
and the host's preparation makes such a state. -/
theorem launchPremisesDecideTheResult : Obligations.LaunchPremisesDecideTheResult := by
  unfold Obligations.LaunchPremisesDecideTheResult
  refine ⟨fun p s s' h h' hends ha hccr => ?_, fun p s₀ => exists_launch_of_preparation s₀⟩
  obtain ⟨t, ht⟩ := exists_hostRun h.idle
  obtain ⟨-, hruns⟩ := hostRun_next_iff.mp ht
  have hcode := h.sameProgram h' hends
  obtain ⟨t', hruns', hsame⟩ := hruns.sameResult (I := fun u u' => SameProgram u.pc.toNat u.mem u'.mem)
    SameProgram.reads (fun hI hu hu' hrun => hI.step hu hu' hrun) (h.sameResult h' ha hccr) (fun _ => hcode)
  exact ⟨t, t', ht, hostRun_next_iff.mpr ⟨h'.idle, hruns'⟩, hsame.a, hsame.pc, hsame.run, hsame.flags⟩

end Sys2Proof.Machine
